-- ==== Sys2Proof/Word.lean ====
section
/-! DEFINITION. The words of the engine (spec/00_scope.md R7): every value is unsigned. -/

namespace Sys2Proof

/-- `u32`: a state word, a schedule word, a command word or a bus word (R7). -/
abbrev Word := BitVec 32

/-- `u8`: one byte of a message or of the block buffer (R7). -/
abbrev Byte := BitVec 8

/-- A block: 64 bytes (R14). -/
abbrev Block := Vector Byte 64

/-- Eight words: the state array `H[0..7]`, the initial value `IV[0..7]` or a digest (R31, R167). -/
abbrev Digest := Vector Word 8

/-- The 64 schedule words `W[0..63]` of one block (R44). -/
abbrev Sched := Vector Word 64

end Sys2Proof
end

