-- ==== Sys2Proof/Config.lean ====
section
/-! DEFINITION. The fixed sizes of spec/00_scope.md R6 that definitions use, and the FREE VALUES: what the spec calls
`unspecified` (R12) or leaves to a free interleaving (spec/20_memory.md R84). A free value is an opaque constant
applied to a counter of draws that the state holds, so nothing can be proved of any one draw. Every instance uses
the same constants at its own counter: those with equal counters draw alike (DESIGN CHOICE, log 19, unsafe for claims that compare instances). -/

namespace Sys2Proof

/-- The two agents of spec/00_scope.md R13 that can move when the pipeline is busy. -/
inductive Agent where
  /-- the bus master that drives the instance -/
  | host
  /-- the round pipeline -/
  | pipeline
  deriving DecidableEq, Repr, Inhabited

/-- WINDOW_BYTES (R6): the size of an instance's register window. -/
abbrev Config.windowBytes : Nat := 0x80

/-- MAX_NB (R6): the most bytes one UPDATE absorbs. -/
def Config.maxNb : Nat := 4

/-- STEPS_PER_BLOCK (R6): 64 round steps and one add step. Counts of model steps, not of time (R250). -/
def Config.stepsPerBlock : Nat := 65

/-- DESIGN CHOICE (log 3, safe): which agent moves at a draw where both could. "Their interleaving is free" (R84). -/
opaque Config.turn : Nat → Agent

/-- DESIGN CHOICE (logs 5 and 6, safe): word `i` of an unspecified schedule (R193, R240). -/
opaque Config.freeSchedWord : Nat → Nat → Word

/-- DESIGN CHOICE (logs 5 and 6, safe): word `i` (0 for `a`, …, 7 for `h`) of unspecified working variables (R193, R240). -/
opaque Config.freeWorkWord : Nat → Nat → Word

/-- DESIGN CHOICE (logs 5 and 6, safe): an unspecified round counter (R193, R240); its values are 0..64 (R43). -/
opaque Config.freeRound : Nat → Fin 65

/-- DESIGN CHOICE (logs 6 and 7, safe): byte `i` of an unspecified block buffer (R240; spec/10_state.md R35). -/
opaque Config.freeByte : Nat → Nat → Byte

end Sys2Proof
end

