-- ==== Sys2Proof/Syntax.lean ====
section
/-! DEFINITION. The commands: one constructor per row of spec/opcode_table.json (spec/30_encoding.md R112, R120). -/

namespace Sys2Proof

/-- A command word, decoded. -/
inductive Instr where
  /-- `NOP`, the word 0x00000000 (spec/40_commands.md R131). -/
  | nop
  /-- `INIT`, the word 0x00000001 (R132). -/
  | init
  /-- `UPDATE nb`: `nb` is the field NB, bits 6:4 (R134). Legal for 0..4 (spec/30_encoding.md R113). -/
  | update (nb : BitVec 3)
  /-- `FINAL`, the word 0x00000003 (R138). -/
  | final
  /-- A word with OP 0x4..0x7 (R116): `low` is bits 1:0 and `high` bits 31:4, which the row does not examine (R120). -/
  | reservedOp47 (low : BitVec 2) (high : BitVec 28)
  /-- A word with OP 0x8..0xF (R116): `low` is bits 2:0 and `high` bits 31:4, which the row does not examine (R120). -/
  | reservedOp8F (low : BitVec 3) (high : BitVec 28)
  deriving DecidableEq, Repr

end Sys2Proof
end

