-- ==== Sys2Proof/WellFormed.lean ====
section
/-! DEFINITION. Which instruction terms stand for command words (spec/30_encoding.md R113). -/

namespace Sys2Proof

/-- R113: NB of an UPDATE is 0 to MAX_NB = 4; "A value of 5, 6 or 7 is illegal". No other operand has a bound. -/
def Instr.wf : Instr → Bool
  | .nop => true
  | .init => true
  | .update nb => nb.toNat ≤ Config.maxNb
  | .final => true
  | .reservedOp47 _ _ => true
  | .reservedOp8F _ _ => true

end Sys2Proof
end

