-- ==== Sys2Proof/Decode.lean ====
section
/-! DEFINITION. The command decoder's checks on the word alone (spec/30_encoding.md R115), the encoder (R111, R120), the rows of the opcode
table, and `decodeTableWord`. -/

namespace Sys2Proof

/-- Why the decoder rejects a word whose OP is 0x0..0x3 (R115). A word with a reserved OP is a row of the table. -/
inductive DecodeError where
  /-- a bit of RSV is set: cause RSVBITS -/
  | rsvBits
  /-- NB is out of range for UPDATE, or not 0 for NOP, INIT or FINAL: cause BADNB -/
  | badNb
  deriving DecidableEq, Repr

/-- OP, bits 3:0 of a command word (R111). -/
def opField (cw : Word) : BitVec 4 := cw.extractLsb' 0 4

/-- NB, bits 6:4 of a command word (R111). -/
def nbField (cw : Word) : BitVec 3 := cw.extractLsb' 4 3

/-- RSV, bits 31:7 of a command word (R111). -/
def rsvField (cw : Word) : BitVec 25 := cw.extractLsb' 7 25

/-- `i` if NB is 0, and BADNB if it is not: the third check of R115 for NOP, INIT and FINAL. -/
def requireNoNb (cw : Word) (i : Instr) : Except DecodeError Instr :=
  if nbField cw ≠ 0 then .error .badNb else .ok i

/-- The first three checks of R115, in their order, and the selection by OP. OP 0x4..0xF is examined first, whatever
the other bits are; then RSV; then NB. The two checks that read SPENT are in the meanings of UPDATE and FINAL. -/
def decode (cw : Word) : Except DecodeError Instr :=
  if (opField cw).getLsbD 3 then
    .ok (.reservedOp8F (cw.extractLsb' 0 3) (cw.extractLsb' 4 28))
  else if (opField cw).getLsbD 2 then
    .ok (.reservedOp47 (cw.extractLsb' 0 2) (cw.extractLsb' 4 28))
  else if rsvField cw ≠ 0 then .error .rsvBits
  else if opField cw = 0 then requireNoNb cw .nop
  else if opField cw = 1 then requireNoNb cw .init
  else if opField cw = 3 then requireNoNb cw .final
  else if Config.maxNb < (nbField cw).toNat then .error .badNb
  else .ok (.update (nbField cw))

/-- A command word from its fields RSV, NB and OP (R111). -/
def commandWord (rsv : BitVec 25) (nb : BitVec 3) (op : BitVec 4) : Word :=
  (rsv.setWidth 32 <<< 7) ||| (nb.setWidth 32 <<< 4) ||| op.setWidth 32

/-- The word of a command (R120); a well-formed command has exactly this one. -/
def encode : Instr → Word
  | .nop => commandWord 0 0 0x0
  | .init => commandWord 0 0 0x1
  | .update nb => commandWord 0 nb 0x2
  | .final => commandWord 0 0 0x3
  | .reservedOp47 low high => (high.setWidth 32 <<< 4) ||| 0x4 ||| low.setWidth 32
  | .reservedOp8F low high => (high.setWidth 32 <<< 4) ||| 0x8 ||| low.setWidth 32

/-- The mask of a command's row of the opcode table (R120). -/
def Instr.rowMask : Instr → Word
  | .nop => 0xFFFFFFFF
  | .init => 0xFFFFFFFF
  | .update _ => 0xFFFFFF8F
  | .final => 0xFFFFFFFF
  | .reservedOp47 _ _ => 0x0000000C
  | .reservedOp8F _ _ => 0x00000008

/-- The match of a command's row of the opcode table (R120). -/
def Instr.rowMatch : Instr → Word
  | .nop => 0x00000000
  | .init => 0x00000001
  | .update _ => 0x00000002
  | .final => 0x00000003
  | .reservedOp47 _ _ => 0x00000004
  | .reservedOp8F _ _ => 0x00000008

/-- The instruction the decoder reads from a word numbered as spec/opcode_table.json numbers it: one 32-bit word, bit 0
its least significant (R7, R110). Bits of `w` at `nbits` and above count as 0. -/
def decodeTableWord (nbits w : Nat) : Option Instr :=
  (decode (BitVec.ofNat 32 (w % 2 ^ nbits))).toOption

end Sys2Proof
end

