-- ==== Sys2Proof/Machine/Bits.lean ====
section
/-! DEFINITION. Rotation and big-endian byte order (spec/00_scope.md R9, R10; spec/20_memory.md R80, R82). -/

namespace Sys2Proof.Machine

/-- R9: the 32-bit right rotation, for `0 < n < 32`. -/
def rotr (x : Word) (n : Nat) : Word := (x >>> n) ||| (x <<< (32 - n))

/-- R10: a word from four bytes, the first byte most significant. -/
def be32 (b0 b1 b2 b3 : Byte) : Word :=
  (b0.setWidth 32 <<< 24) ||| (b1.setWidth 32 <<< 16) ||| (b2.setWidth 32 <<< 8) ||| b3.setWidth 32

/-- R10: the four bytes of a word, most significant first. These are also the lanes of DATA_IN in their order (R82). -/
def be32Bytes (w : Word) : List Byte :=
  [w.extractLsb' 24 8, w.extractLsb' 16 8, w.extractLsb' 8 8, w.extractLsb' 0 8]

/-- R10: the eight bytes of a 64-bit count, most significant first. -/
def be64Bytes (v : BitVec 64) : List Byte :=
  be32Bytes (v.extractLsb' 32 32) ++ be32Bytes (v.extractLsb' 0 32)

end Sys2Proof.Machine
end

