-- ==== Sys2Proof/Machine/Constants.lean ====
section
/-! DEFINITION. The two constant tables (spec/41_transform.md R166, R167). PRESUMED (log 13, unsafe): the spec itself gives the values of K and
of IV[1..6] as general knowledge, not from its source; the model takes them as the spec prints them. -/

namespace Sys2Proof.Machine

/-- The rows of the table of R166: row `r` holds `K[8r], …, K[8r + 7]`, the first of them in the most significant word. -/
def roundConstantRows : Vector (BitVec 256) 8 :=
  #v[
    0x428a2f98_71374491_b5c0fbcf_e9b5dba5_3956c25b_59f111f1_923f82a4_ab1c5ed5,
    0xd807aa98_12835b01_243185be_550c7dc3_72be5d74_80deb1fe_9bdc06a7_c19bf174,
    0xe49b69c1_efbe4786_0fc19dc6_240ca1cc_2de92c6f_4a7484aa_5cb0a9dc_76f988da,
    0x983e5152_a831c66d_b00327c8_bf597fc7_c6e00bf3_d5a79147_06ca6351_14292967,
    0x27b70a85_2e1b2138_4d2c6dfc_53380d13_650a7354_766a0abb_81c2c92e_92722c85,
    0xa2bfe8a1_a81a664b_c24b8b70_c76c51a3_d192e819_d6990624_f40e3585_106aa070,
    0x19a4c116_1e376c08_2748774c_34b0bcb5_391c0cb3_4ed8aa4a_5b9cca4f_682e6ff3,
    0x748f82ee_78a5636f_84c87814_8cc70208_90befffa_a4506ceb_bef9a3f7_c67178f2]

/-- `K[t]` (R166): column `t mod 8` of row `t / 8`. -/
def roundConstant (t : Fin 64) : Word :=
  roundConstantRows[t.val / 8].extractLsb' (32 * (7 - t.val % 8)) 32

/-- `IV[0..7]`, the initial value of the state array (R167). -/
def initialValue : Digest :=
  #v[0x6a09e667, 0xbb67ae85, 0x3c6ef372, 0xa54ff53a, 0x510e527f, 0x9b05688c, 0x1f83d9ab, 0x5be0cd19]

end Sys2Proof.Machine
end

