-- ==== Sys2Proof/Machine/Transform.lean ====
section
/-! DEFINITION. The compression transform as pure functions (spec/41_transform.md). All sums are modulo 2^32 (R172). The pipeline
(Pipeline.lean) takes the same `extendSchedule` and `round` one at a time. -/

namespace Sys2Proof.Machine

/-- R160. The last term is a shift, not a rotation. -/
def smallSigma0 (x : Word) : Word := rotr x 7 ^^^ rotr x 18 ^^^ (x >>> 3)

/-- R161. The last term is a shift, not a rotation. -/
def smallSigma1 (x : Word) : Word := rotr x 17 ^^^ rotr x 19 ^^^ (x >>> 10)

/-- R162. -/
def bigSigma0 (x : Word) : Word := rotr x 2 ^^^ rotr x 13 ^^^ rotr x 22

/-- R163. -/
def bigSigma1 (x : Word) : Word := rotr x 6 ^^^ rotr x 11 ^^^ rotr x 25

/-- R164: each bit of `x` chooses the bit of `y` or of `z`. -/
def ch (x y z : Word) : Word := (x &&& y) ^^^ (~~~x &&& z)

/-- R165: the majority of the three, bit by bit. -/
def maj (x y z : Word) : Word := (x &&& y) ^^^ (x &&& z) ^^^ (y &&& z)

/-- `V = (a, b, c, d, e, f, g, h)`, the working variables (spec/10_state.md R45). -/
structure Work where
  a : Word
  b : Word
  c : Word
  d : Word
  e : Word
  f : Word
  g : Word
  h : Word
  deriving DecidableEq, Repr

/-- "Load working variables a..h from state" (R168, spec/42_pipeline.md R191). -/
def Work.load (x : Digest) : Work := ⟨x[0], x[1], x[2], x[3], x[4], x[5], x[6], x[7]⟩

/-- R171: the word-wise sum of the state array and the working variables. -/
def finalAdd (x : Digest) (v : Work) : Digest :=
  #v[x[0] + v.a, x[1] + v.b, x[2] + v.c, x[3] + v.d, x[4] + v.e, x[5] + v.f, x[6] + v.g, x[7] + v.h]

/-- The block's 16 big-endian words become `W[0..15]` (R169, spec/20_memory.md R80); the other entries keep what they held. -/
def loadBlock (blk : Block) (w : Sched) : Sched :=
  Vector.ofFn fun j : Fin 64 =>
    if h : j.val < 16 then be32 blk[4 * j.val] blk[4 * j.val + 1] blk[4 * j.val + 2] blk[4 * j.val + 3] else w[j]

/-- R169: writes `W[t]` from four earlier words when 16 ≤ t ≤ 63, and nothing for any other t. -/
def extendSchedule (w : Sched) (t : Nat) : Sched :=
  if h : 16 ≤ t ∧ t < 64 then
    w.set t (smallSigma1 w[t - 2] + w[t - 7] + smallSigma0 w[t - 15] + w[t - 16])
  else w

/-- The schedule after the steps 0..n−1 of R169. -/
def extendTo (w : Sched) : Nat → Sched
  | 0 => w
  | n + 1 => extendSchedule (extendTo w n) n

/-- `Schedule(blk)` (R169). The entries from 16 on are each written before they are read, so the zeros stand for nothing. -/
def schedule (blk : Block) : Sched := extendTo (loadBlock blk (Vector.replicate 64 0)) 64

/-- `T1` of R170: five terms. -/
def roundT1 (k w : Word) (v : Work) : Word := v.h + bigSigma1 v.e + ch v.e v.f v.g + k + w

/-- `T2` of R170. -/
def roundT2 (v : Work) : Word := bigSigma0 v.a + maj v.a v.b v.c

/-- `Round(t, w, V)` (R170) with `k = K[t]`. The eight writes are simultaneous. -/
def round (k w : Word) (v : Work) : Work :=
  { a := roundT1 k w v + roundT2 v, b := v.a, c := v.b, d := v.c, e := v.d + roundT1 k w v, f := v.e, g := v.f, h := v.g }

/-- Round `t` with the schedule `w`, for `t` in 0..63; no round for any other `t`. -/
def roundAt (w : Sched) (t : Nat) (v : Work) : Work :=
  if h : t < 64 then round (roundConstant ⟨t, h⟩) w[t] v else v

/-- The working variables after the rounds 0..n−1 of R168. -/
def roundsTo (w : Sched) (v : Work) : Nat → Work
  | 0 => v
  | n + 1 => roundAt w n (roundsTo w v n)

/-- `Compress(Hin, blk)` (R168). -/
def compress (hin : Digest) (blk : Block) : Digest :=
  finalAdd hin (roundsTo (schedule blk) (Work.load hin) 64)

end Sys2Proof.Machine
end

