-- ==== Sys2Proof/Machine/State.lean ====
section
/-! DEFINITION. The state of one engine instance (spec/10_state.md R30) with the model's own record of the host, the fault marks and
the free values; the reasons a step can stop; the state after reset (R49). -/

namespace Sys2Proof.Machine

/-- The causes an error is recorded under (spec/60_exceptions.md R211). Code 0 is "no error"; code 7 is never recorded. -/
inductive Cause where
  /-- OP = 0x4..0xF -/
  | rsvOp
  /-- a bit of `cw[31:7]` is set, OP legal -/
  | rsvBits
  /-- NB out of range -/
  | badNb
  /-- UPDATE while SPENT = 1 -/
  | updSpent
  /-- FINAL while SPENT = 1 -/
  | finSpent
  /-- a bad access -/
  | badAcc
  deriving DecidableEq, Repr

/-- A fault mark the model keeps (R227): one for every recorded error and every carry out of `bit_count`. -/
inductive Mark where
  /-- a `CmdError` was raised -/
  | error (c : Cause)
  /-- an addition to `bit_count` carried out of bit 63 -/
  | overflow
  deriving DecidableEq, Repr

/-- One access of the host to the register window (spec/00_scope.md R11, spec/20_memory.md R70): `off` is the offset of the bus
address from ENGINE_BASE, `width` the number of bytes. -/
inductive Access where
  /-- `MemRead(ENGINE_BASE + off, width)` -/
  | read (off : Fin Config.windowBytes) (width : Nat)
  /-- `MemWrite(ENGINE_BASE + off, width, v)`; `v` takes effect only in a 4-byte write (R72) -/
  | write (off : Fin Config.windowBytes) (width : Nat) (v : Word)
  deriving DecidableEq, Repr

/-- Why the machine stops with a fault. No step of an engine does (spec/60_exceptions.md R210). -/
inductive Fault where
  /-- DESIGN CHOICE (log 14). Raised by `Platform.present` for a bus address in no instance's window (spec/20_memory.md R70), and by
  `Platform.stepAt` for a place in the list with no instance. Safe: the model stops where the platform goes on with another device. -/
  | noDevice
  deriving DecidableEq, Repr

/-- Why the machine refuses. -/
inductive Refusal where
  /-- Raised only by an arm of `exec` whose instruction has no meaning yet. Safe. No arm raises it. -/
  | notModelled (mnemonic : String)
  /-- Raised by `Platform.present` for an access of a host that does not drive the instance (R224; spec/93_implementation_defined.md
  U15: "refuse"). Safe: the model stops where the hardware goes on. -/
  | secondHost
  deriving DecidableEq, Repr

/-- The state. The first thirteen fields are the record of spec/10_state.md R30; the last five are the model's own. -/
structure State where
  /-- `H[0..7]`, the state array (R31). -/
  h : Digest
  /-- `bit_count` (R33). -/
  bitCount : BitVec 64
  /-- `Buf[0..63]`, the block buffer (R35). -/
  buf : Block
  /-- `DATA_IN` (R38). -/
  dataIn : Word
  /-- `SPENT` (R36). -/
  spent : Bool
  /-- `ERR` (R39). -/
  err : Bool
  /-- `ECAUSE` (R39). -/
  ecause : BitVec 3
  /-- `OVF` (R37). -/
  ovf : Bool
  /-- `BUSY` (R40). -/
  busy : Bool
  /-- `PEND` (R42). -/
  pend : Bool
  /-- `t`, 0..64 (R43). -/
  t : Fin 65
  /-- `W[0..63]` (R44). -/
  w : Sched
  /-- `V = (a, …, h)` (R45). -/
  v : Work
  /-- The model's own (log 2): the accesses the host has still to complete, oldest first (spec/20_memory.md R85). -/
  queue : List Access
  /-- The model's own (log 11): the values the host's reads returned, oldest first (spec/70_reset_and_hazards.md R251). -/
  reads : List Word
  /-- The model's own (log 11): the fault marks, oldest first (spec/60_exceptions.md R227). -/
  marks : List Mark
  /-- The model's own (log 6): the platform asserts reset (spec/70_reset_and_hazards.md R240). -/
  resetIn : Bool
  /-- The model's own (logs 3, 5, 6, 7 and 19): how many free values this instance has drawn. -/
  draws : Nat
  deriving DecidableEq, Repr

/-- R49: every element after the reset event. DESIGN CHOICE (log 4, unsafe): `buf`, `t`, `w` and `v`, which R49 leaves
unspecified, are zero; no rule reads them before writing them (R50). The model's own fields are empty: the engine fetches
nothing, so no program stands there (log 9). -/
def State.reset : State where
  h := initialValue
  bitCount := 0
  buf := Vector.replicate 64 0
  dataIn := 0
  spent := false
  err := false
  ecause := 0
  ovf := false
  busy := false
  pend := false
  t := 0
  w := Vector.replicate 64 0
  v := ⟨0, 0, 0, 0, 0, 0, 0, 0⟩
  queue := []
  reads := []
  marks := []
  resetIn := false
  draws := 0

end Sys2Proof.Machine
end

