-- ==== Sys2Proof/Machine/Operands.lean ====
section
/-! DEFINITION. What a command and an access operate on: the DATA_IN lanes of an UPDATE (spec/30_encoding.md R114), the padding bytes of a
FINAL (spec/40_commands.md R137, R138), and the register an access reaches (spec/20_memory.md R71 to R74). -/

namespace Sys2Proof.Machine

/-- INDEX (spec/10_state.md R34): `bit_count[8:3]`, the buffered byte count. -/
def indexOf (bc : BitVec 64) : BitVec 6 := bc.extractLsb' 3 6

/-- INDEX of the state (R34); it is not stored. -/
def State.index (s : State) : BitVec 6 := indexOf s.bitCount

/-- The bytes an `UPDATE nb` absorbs, in order: the first `nb` lanes of DATA_IN, most significant first (R82, R114). -/
def updateBytes (nb : BitVec 3) (d : Word) : List Byte := (be32Bytes d).take nb.toNat

/-- `PadLen(idx)` (R137, with the correction of spec/90_conflicts.md C1). -/
def padLen (idx : Nat) : Nat := if idx < 56 then 56 - idx else 120 - idx

/-- The bytes a FINAL absorbs when `bit_count` is `l` at its acceptance (R138): the 0x80 marker, zeros, and the length before padding,
big-endian. -/
def finalBytes (l : BitVec 64) : List Byte :=
  [0x80] ++ List.replicate (padLen (indexOf l).toNat - 1) 0x00 ++ be64Bytes l

/-- The registers of the window (R71). -/
inductive Reg where
  | cmd
  | status
  | dataIn
  | bitcntLo
  | bitcntHi
  /-- DIGESTi, i = 0..7 -/
  | digest (i : Fin 8)
  deriving DecidableEq, Repr

/-- The offset of a register (R71). -/
def Reg.offset : Reg → Fin Config.windowBytes
  | .cmd => 0x00
  | .status => 0x04
  | .dataIn => 0x08
  | .bitcntLo => 0x10
  | .bitcntHi => 0x14
  | .digest i => ⟨0x20 + 4 * i.val, by have := i.isLt; simp only [Config.windowBytes]; omega⟩

/-- The register at an offset; `none` at a reserved offset and at an offset that is not a multiple of 4 (R71, R73). -/
def regAt (off : Fin Config.windowBytes) : Option Reg :=
  if off.val = 0x00 then some .cmd
  else if off.val = 0x04 then some .status
  else if off.val = 0x08 then some .dataIn
  else if off.val = 0x10 then some .bitcntLo
  else if off.val = 0x14 then some .bitcntHi
  else if h : 0x20 ≤ off.val ∧ off.val < 0x40 ∧ off.val % 4 = 0 then
    some (.digest ⟨(off.val - 0x20) / 4, by omega⟩)
  else none

/-- CMD and DATA_IN take writes; every other register is read-only (R71, R74). -/
def Reg.writable : Reg → Bool
  | .cmd => true
  | .status => false
  | .dataIn => true
  | .bitcntLo => false
  | .bitcntHi => false
  | .digest _ => false

/-- The register a read reaches, `none` for a bad read (R72, R73): only a 4-byte read at a multiple of 4 is well formed. -/
def readTarget (off : Fin Config.windowBytes) (width : Nat) : Option Reg :=
  if width = 4 ∧ off.val % 4 = 0 then regAt off else none

/-- The register a write reaches, `none` for a bad write (R72, R73, R74). -/
def writeTarget (off : Fin Config.windowBytes) (width : Nat) : Option Reg :=
  (readTarget off width).filter Reg.writable

/-- The accesses that are held while BUSY = 1: a well-formed CMD write (R75) and a well-formed DIGEST read (R79). A bad access
is never held (spec/60_exceptions.md R214). -/
def Access.heldWhileBusy : Access → Bool
  | .read off width =>
    match readTarget off width with
    | some (.digest _) => true
    | _ => false
  | .write off width _ =>
    match writeTarget off width with
    | some .cmd => true
    | _ => false

/-- `WR reg, v` (spec/30_encoding.md R118). -/
def Access.wr (r : Reg) (v : Word) : Access := .write r.offset 4 v

/-- `RD reg` (R118). -/
def Access.rd (r : Reg) : Access := .read r.offset 4

/-- `CMD command` as its word (R118). -/
def Access.command (cw : Word) : Access := .wr .cmd cw

end Sys2Proof.Machine
end

