-- ==== Sys2Proof/Machine/Flags.lean ====
section
/-! DEFINITION. Every flag computation: the carry that sets OVF (spec/40_commands.md R133), the cause codes (spec/60_exceptions.md R211) and
the STATUS word (spec/10_state.md R48). -/

namespace Sys2Proof.Machine

/-- The 65-bit sum of R133. -/
def bitCountSum (bc : BitVec 64) : BitVec 65 := bc.zeroExtend 65 + 8

/-- `bit_count` after one absorbed byte: the sum modulo 2^64 (R133). -/
def addByte (bc : BitVec 64) : BitVec 64 := (bitCountSum bc).extractLsb' 0 64

/-- The carry out of bit 63, which sets OVF (R133, R37). -/
def addByteCarry (bc : BitVec 64) : Bool := (bitCountSum bc).getLsbD 64

/-- The code ECAUSE takes (R211). -/
def Cause.code : Cause → BitVec 3
  | .rsvOp => 1
  | .rsvBits => 2
  | .badNb => 3
  | .updSpent => 4
  | .finSpent => 5
  | .badAcc => 6

/-- The cause the decoder raises for a word it rejects (spec/30_encoding.md R115). -/
def decodeCause : DecodeError → Cause
  | .rsvBits => .rsvBits
  | .badNb => .badNb

/-- One flag as bit 0 of a bus word. -/
def flagWord (b : Bool) : Word := (BitVec.ofBool b).zeroExtend 32

/-- The STATUS word, composed at the moment of the read (R48); reserved bits are 0. -/
def statusWord (s : State) : Word :=
  flagWord s.busy ||| (flagWord s.spent <<< 1) ||| (flagWord s.err <<< 2) ||| (flagWord s.ovf <<< 3)
    ||| (s.index.zeroExtend 32 <<< 8) ||| (s.ecause.zeroExtend 32 <<< 16)

end Sys2Proof.Machine
end

