-- ==== Sys2Proof/Machine/Ops.lean ====
section
/-! DEFINITION. The operations the commands, the accesses and the pipeline share: recording an error, issuing a block, absorbing a byte,
acceptance, and the reset event. -/

namespace Sys2Proof.Machine

/-- `raise CmdError(code)` (spec/60_exceptions.md R212): ERR is sticky, the first cause since INIT or reset is kept, and nothing else of the
engine changes. It takes the place of a trap (R218): nothing is saved, no control moves, and there is no return (R219). The
model adds its fault mark (R227). -/
def recordError (c : Cause) (s : State) : State :=
  { s with err := true, ecause := if s.err then s.ecause else c.code, marks := s.marks ++ [.error c] }

/-- One free value has been drawn. -/
def drawn (s : State) : State := { s with draws := s.draws + 1 }

/-- The value a host's read returns. -/
def returnWord (v : Word) (s : State) : State := { s with reads := s.reads ++ [v] }

/-- `Issue()` (spec/42_pipeline.md R191): the block in `Buf` into the schedule, `H` into the working variables. -/
def issue (s : State) : State :=
  { s with w := loadBlock s.buf s.w, v := Work.load s.h, t := 0, busy := true }

/-- A byte has completed a block (R133): issue it, or leave it waiting in `Buf` behind the block in flight. -/
def completeBlock (s : State) : State := if s.busy then { s with pend := true } else issue s

/-- The stores of `AbsorbByte(b)` (R133): the byte at INDEX, `bit_count`, and OVF with the model's mark on a carry. What is unspecified in `Buf`
after the command is left to `absorb`. -/
def storeByte (b : Byte) (s : State) : State :=
  { s with
    buf := s.buf.set s.index.toNat b s.index.isLt
    bitCount := addByte s.bitCount
    ovf := s.ovf || addByteCarry s.bitCount
    marks := if addByteCarry s.bitCount then s.marks ++ [.overflow] else s.marks }

/-- `AbsorbByte(b)` (R133). -/
def absorbByte (b : Byte) (s : State) : State :=
  if s.index = 63 then completeBlock (storeByte b s) else storeByte b s

/-- Absorbs bytes in their order, as the loops of UPDATE and FINAL do (R134, R138). -/
def absorbBytes : List Byte → State → State
  | [], s => s
  | b :: bs, s => absorbBytes bs (absorbByte b s)

/-- The buffer bytes of a draw: unspecified. -/
@[irreducible] def freeBlock (n : Nat) : Block := Vector.ofFn fun i : Fin 64 => Config.freeByte n i.val

/-- `Buf` with its first `n` bytes kept and the others those of `free`. -/
@[irreducible] def keepFirst (n : Nat) (buf free : Block) : Block := Vector.ofFn fun j : Fin 64 => if j.val < n then buf[j] else free[j]

/-- While no block waits, "Bytes `Buf[INDEX..63]` are unspecified" (spec/10_state.md R35, spec/00_scope.md R12): they are free values of one
draw (log 7). A waiting block is meaningful as a whole, and nothing is drawn. -/
def forgetTail (s : State) : State :=
  { s with
    buf := if s.pend then s.buf else keepFirst s.index.toNat s.buf (freeBlock s.draws)
    draws := if s.pend then s.draws else s.draws + 1 }

/-- The bytes a command absorbs (R134, R138), and what it leaves in `Buf` (R35). With no byte nothing changes (R134). -/
def absorb (bs : List Byte) (s : State) : State :=
  if bs = [] then s else forgetTail (absorbBytes bs s)

/-- Acceptance (spec/40_commands.md R130): a command has its whole effect when BUSY = 0. While BUSY = 1 its write is held (R244): the
command has no effect yet, and the access stays with the host (`advance`). -/
def accept (effect : State → State) (s : State) : Host.Outcome State Fault Refusal :=
  .next (if s.busy then s else effect s)

/-- The working variables of a draw: unspecified. -/
def freeWork (n : Nat) : Work :=
  { a := Config.freeWorkWord n 0, b := Config.freeWorkWord n 1, c := Config.freeWorkWord n 2, d := Config.freeWorkWord n 3,
    e := Config.freeWorkWord n 4, f := Config.freeWorkWord n 5, g := Config.freeWorkWord n 6, h := Config.freeWorkWord n 7 }

/-- The schedule words of a draw: unspecified. -/
@[irreducible] def freeSched (n : Nat) : Sched := Vector.ofFn fun i : Fin 64 => Config.freeSchedWord n i.val

/-- `t`, `W` and `V` become unspecified (spec/42_pipeline.md R193, spec/70_reset_and_hazards.md R240): free values of one draw. -/
def forgetPipeline (s : State) : State :=
  { s with t := Config.freeRound s.draws, w := freeSched s.draws, v := freeWork s.draws, draws := s.draws + 1 }

/-- `Buf` becomes unspecified (R240). -/
def forgetBuffer (s : State) : State := { s with buf := freeBlock s.draws, draws := s.draws + 1 }

/-- The host's queue when a reset arrives: "A host access held at the moment of reset is aborted" (R240); it returns nothing. -/
def abortHeld (s : State) : List Access :=
  match s.queue with
  | [] => []
  | a :: rest => if s.busy && a.heldWhileBusy then rest else a :: rest

/-- The reset event (R240): every element its value of spec/10_state.md R49, the unspecified ones free. The reads already returned and the
fault marks are the model's record and stay (R227, log 6). -/
def resetEvent (s : State) : State :=
  forgetBuffer (forgetPipeline { s with
    h := initialValue
    bitCount := 0
    dataIn := 0
    spent := false
    err := false
    ecause := 0
    ovf := false
    busy := false
    pend := false
    queue := abortHeld s
    resetIn := false })

end Sys2Proof.Machine
end

