-- ==== Sys2Proof/Machine/Commands.lean ====
section
/-! DEFINITION. The meanings of the four legal commands (spec/40_commands.md). -/

namespace Sys2Proof.Machine

/-- NOP (R131): `skip`. -/
def execNop (s : State) : Host.Outcome State Fault Refusal := accept id s

/-- The writes of INIT (R132). -/
def initWrites (s : State) : State :=
  { s with h := initialValue, bitCount := 0, spent := false, ovf := false, err := false, ecause := 0 }

/-- The effect of INIT (R132). INDEX becomes 0, so the buffered bytes "are unspecified" from then on (R132, R35; log 7). With INDEX = 0 before, `Buf` held
no meaningful byte and stays, so that a second INIT leaves the same state. -/
def initEffect (s : State) : State :=
  if s.index = 0 then initWrites s else forgetTail (initWrites s)

/-- INIT (R132): legal in every state. DATA_IN, `t`, `W`, `V` and the model's fault marks (spec/60_exceptions.md R227) stay. -/
def execInit (s : State) : Host.Outcome State Fault Refusal := accept initEffect s

/-- The effect of UPDATE (R134): BADNB, then UPDSPENT (the order of spec/30_encoding.md R115), else the first NB lanes of DATA_IN are absorbed. -/
def updateEffect (nb : BitVec 3) (s : State) : State :=
  if Config.maxNb < nb.toNat then recordError .badNb s
  else if s.spent then recordError .updSpent s
  else absorb (updateBytes nb s.dataIn) s

/-- UPDATE (R134). -/
def execUpdate (nb : BitVec 3) (s : State) : Host.Outcome State Fault Refusal := accept (updateEffect nb) s

/-- The effect of FINAL (R138): FINSPENT, else SPENT and then padding and length, both computed from `bit_count` before any padding. -/
def finalEffect (s : State) : State :=
  if s.spent then recordError .finSpent s
  else absorb (finalBytes s.bitCount) { s with spent := true }

/-- FINAL (R138). -/
def execFinal (s : State) : Host.Outcome State Fault Refusal := accept finalEffect s

end Sys2Proof.Machine
end

