-- ==== Sys2Proof/Machine/Reserved.lean ====
section
/-! DEFINITION. The meanings of the two reserved-opcode rows (spec/30_encoding.md R115, R116): the word is rejected, RSVOP is recorded, and
nothing else happens (spec/60_exceptions.md R210, R212). The bits outside OP are not examined (R120). -/

namespace Sys2Proof.Machine

/-- A word with OP 0x4..0x7. -/
def execReservedOp47 (s : State) : Host.Outcome State Fault Refusal := accept (recordError .rsvOp) s

/-- A word with OP 0x8..0xF. -/
def execReservedOp8F (s : State) : Host.Outcome State Fault Refusal := accept (recordError .rsvOp) s

end Sys2Proof.Machine
end

