-- ==== Sys2Proof/Machine/Dispatch.lean ====
section
/-! DEFINITION. One arm per command (spec/30_encoding.md R112). -/

namespace Sys2Proof.Machine

def exec (i : Instr) (s : State) : Host.Outcome State Fault Refusal :=
  match i with
  | .nop => Sys2Proof.Machine.execNop s
  | .init => Sys2Proof.Machine.execInit s
  | .update nb => Sys2Proof.Machine.execUpdate nb s
  | .final => Sys2Proof.Machine.execFinal s
  | .reservedOp47 _ _ => Sys2Proof.Machine.execReservedOp47 s
  | .reservedOp8F _ _ => Sys2Proof.Machine.execReservedOp8F s

end Sys2Proof.Machine
end

