-- ==== Sys2Proof/Machine/Pipeline.lean ====
section
/-! DEFINITION. The message scheduler and round pipeline (spec/42_pipeline.md R190 to R193). -/

namespace Sys2Proof.Machine

/-- `RoundStep()` (R192), for `t < 64`: schedule word `t` when t ≥ 16, then round `t`, then `t + 1`. -/
def roundStep (s : State) (h : s.t.val < 64) : State :=
  { s with
    w := extendSchedule s.w s.t.val
    v := roundAt (extendSchedule s.w s.t.val) s.t.val s.v
    t := ⟨s.t.val + 1, by omega⟩ }

/-- `AddStep()` (R193), for `t = 64`: folds `V` into `H`, then issues the block waiting in `Buf`, whose bytes are
unspecified from then on (spec/10_state.md R35), or goes idle. -/
def addStep (s : State) : State :=
  if s.pend then forgetTail (issue { s with h := finalAdd s.h s.v, pend := false })
  else forgetPipeline { s with h := finalAdd s.h s.v, busy := false }

/-- The pipeline's step (R190): enabled exactly when BUSY = 1. -/
def pipelineStep (s : State) : State :=
  if s.busy then (if h : s.t.val < 64 then roundStep s h else addStep s) else s

/-- `n` steps of the pipeline with no host access between them. -/
def pipelineSteps : Nat → State → State
  | 0, s => s
  | n + 1, s => pipelineSteps n (pipelineStep s)

end Sys2Proof.Machine
end

