-- ==== Sys2Proof/Machine/HostPort.lean ====
section
/-! DEFINITION. The host's accesses (spec/20_memory.md R71 to R79) and which agent moves next (R84 to R86). -/

namespace Sys2Proof.Machine

/-- The value a well-formed read returns (R75 to R79). -/
def readReg (r : Reg) (s : State) : Word :=
  match r with
  | .cmd => 0
  | .status => statusWord s
  | .dataIn => s.dataIn
  | .bitcntLo => s.bitCount.extractLsb' 0 32
  | .bitcntHi => s.bitCount.extractLsb' 32 32
  | .digest i => s.h[i]

/-- A command word at its acceptance (spec/30_encoding.md R115, spec/40_commands.md R130): run, or rejected with its cause. -/
def acceptWord (cw : Word) (s : State) : Host.Outcome State Fault Refusal :=
  match decode cw with
  | .ok i => exec i s
  | .error e => accept (recordError (decodeCause e)) s

/-- An access takes effect (R72 to R79). A bad access is classified before anything else (spec/60_exceptions.md R213): it records BADACC,
and a bad read returns 0 (R210). -/
def perform (a : Access) (s : State) : Host.Outcome State Fault Refusal :=
  match a with
  | .read off width =>
    match readTarget off width with
    | some r => .next (returnWord (readReg r s) s)
    | none => .next (returnWord 0 (recordError .badAcc s))
  | .write off width v =>
    match writeTarget off width with
    | some .cmd => acceptWord v s
    | some .dataIn => .next { s with dataIn := v }
    | _ => .next (recordError .badAcc s)

/-- The host's oldest access `a` meets a busy engine. A held access waits and the pipeline moves (R75, R79); for any other, which of
the two agents moves is free (R84, log 3). DESIGN CHOICE (log 19, unsafe for claims that compare instances): all instances draw from the same
`Config.turn`, each at its own counter, so two with equal counters choose alike; the spec ties no two instances together. -/
def contend (a : Access) (rest : List Access) (s : State) : Host.Outcome State Fault Refusal :=
  if a.heldWhileBusy then .next (pipelineStep s)
  else
    match Config.turn s.draws with
    | .pipeline => .next (pipelineStep (drawn s))
    | .host => perform a { drawn s with queue := rest }

/-- One move of the machine: the reset event when the platform asserts reset (spec/70_reset_and_hazards.md R240), else the host's oldest access
or a pipeline step. With nothing to do the machine stays as it is (spec/60_exceptions.md R226). -/
def advance (s : State) : Host.Outcome State Fault Refusal :=
  if s.resetIn then .next (resetEvent s)
  else
    match s.queue with
    | [] => .next (pipelineStep s)
    | a :: rest => if s.busy then contend a rest s else perform a { s with queue := rest }

/-- The state with the host about to issue the CMD write of `cw` to an idle engine that is not being reset: the very next step
accepts it (log 9). -/
def placeCommand (cw : Word) (s : State) : State :=
  { s with queue := .command cw :: s.queue, busy := false, pend := false, resetIn := false }

end Sys2Proof.Machine
end

