-- ==== Sys2Proof/Machine/Step.lean ====
section
/-! DEFINITION. The step of one engine instance with its host, and how a command is placed for the next step. -/

namespace Sys2Proof.Machine

/-- One step (spec/00_scope.md R13): one move of the agent whose turn it is. -/
def step (s : State) : Host.Outcome State Fault Refusal := advance s

/-- The engine fetches nothing (spec/20_memory.md R89): the next command is the host's next CMD write (log 9). -/
def State.withFetchWord (s : State) (nbits w : Nat) : State := placeCommand (BitVec.ofNat 32 (w % 2 ^ nbits)) s

end Sys2Proof.Machine
end

