-- ==== Sys2Proof/Machine/Message.lean ====
section
/-! DEFINITION. Whole messages (spec/40_commands.md R142) and the pseudo-operations of spec/30_encoding.md R119, which are lists of host accesses. -/

namespace Sys2Proof.Machine

/-- `Pad(m)` (R142). -/
def pad (m : List Byte) : List Byte :=
  m ++ [0x80] ++ List.replicate (padLen (m.length % 64) - 1) 0x00 ++ be64Bytes (BitVec.ofNat 64 (8 * m.length))

/-- The first 64 bytes of a list as a block. -/
def blockOf (bs : List Byte) : Block := Vector.ofFn fun i : Fin 64 => bs.getD i.val 0

/-- The fold of `Compress` over the first `n` 64-byte blocks of a list, first block first. -/
def compressBlocks : Nat → List Byte → Digest → Digest
  | 0, _, x => x
  | n + 1, bs, x => compressBlocks n (bs.drop 64) (compress x (blockOf bs))

/-- `Digest(m)` (R142). -/
def digestOf (m : List Byte) : Digest := compressBlocks ((pad m).length / 64) (pad m) initialValue

/-- The 32 bytes of a digest: its words, each most significant byte first (spec/20_memory.md R80(c), R81). -/
def digestBytes (x : Digest) : List Byte := x.toList.flatMap be32Bytes

/-- `WR DATA_IN, …; CMD UPDATE nb`. -/
def chunkAccesses (d : Word) (nb : BitVec 3) : List Access :=
  [.wr .dataIn d, .command (encode (.update nb))]

/-- `ABSORB m` (R119): four bytes a command, missing bytes of the last word written as 0x00. -/
def absorbAccesses : List Byte → List Access
  | [] => []
  | [b0] => chunkAccesses (be32 b0 0 0 0) 1
  | [b0, b1] => chunkAccesses (be32 b0 b1 0 0) 2
  | [b0, b1, b2] => chunkAccesses (be32 b0 b1 b2 0) 3
  | b0 :: b1 :: b2 :: b3 :: rest => chunkAccesses (be32 b0 b1 b2 b3) 4 ++ absorbAccesses rest

/-- `READDIGEST` (R119). -/
def readDigestAccesses : List Access :=
  [.rd (.digest 0), .rd (.digest 1), .rd (.digest 2), .rd (.digest 3), .rd (.digest 4), .rd (.digest 5), .rd (.digest 6), .rd (.digest 7)]

/-- `ABSORB c1; …; ABSORB ck; CMD FINAL; READDIGEST` (R119), for an engine that is ready to absorb a message. -/
def messageAccesses (cs : List (List Byte)) : List Access :=
  cs.flatMap absorbAccesses ++ [.command (encode .final)] ++ readDigestAccesses

/-- `CMD INIT; ABSORB c1; …; ABSORB ck; CMD FINAL; READDIGEST` (R119): `HASH m` for a message delivered in the chunks `cs`. -/
def hashAccesses (cs : List (List Byte)) : List Access :=
  .command (encode .init) :: messageAccesses cs

end Sys2Proof.Machine
end

