-- ==== Sys2Proof/Machine/Platform.lean ====
section
/-! DEFINITION. The platform around the engines (spec/00_scope.md R5, R6; spec/20_memory.md R70; spec/60_exceptions.md R224): N_INSTANCES engines, each
with its own window at its own ENGINE_BASE and its one host, and no shared state. The two open parameters are arguments here. -/

namespace Sys2Proof.Machine

/-- One instance on the platform. -/
structure Slot where
  /-- ENGINE_BASE / 0x80: "a multiple of 0x80" (spec/92_eei_decisions.md D2) -/
  page : Nat
  /-- the one host that drives the instance (R224) -/
  driver : Nat
  engine : State
  deriving DecidableEq, Repr

/-- The instances; their number is N_INSTANCES (R6). -/
structure Platform where
  slots : List Slot
  deriving DecidableEq, Repr

/-- ENGINE_BASE of an instance (R6, R70). -/
def Slot.base (x : Slot) : Nat := x.page * Config.windowBytes

/-- At least one instance (R6), and no two with the same window (R5: "its own register window"). -/
abbrev Platform.wf (p : Platform) : Prop := p.slots ≠ [] ∧ (p.slots.map Slot.page).Nodup

/-- A bus access before the platform's address decode (R11): `MemRead(addr, width)` or `MemWrite(addr, width, v)`. -/
inductive BusAccess where
  | read (addr width : Nat)
  | write (addr width : Nat) (v : Word)
  deriving DecidableEq, Repr

/-- The bus address. -/
def BusAccess.addr : BusAccess → Nat
  | .read addr _ => addr
  | .write addr _ _ => addr

/-- The access as the instance's window sees it: the offset `addr − ENGINE_BASE` (R70). -/
def BusAccess.inWindow : BusAccess → Access
  | .read addr width => .read ⟨addr % Config.windowBytes, Nat.mod_lt _ (by decide)⟩ width
  | .write addr width v => .write ⟨addr % Config.windowBytes, Nat.mod_lt _ (by decide)⟩ width v

/-- The host's access joins the accesses it has still to complete (R85). -/
def Slot.enqueue (x : Slot) (a : BusAccess) : Slot :=
  { x with engine := { x.engine with queue := x.engine.queue ++ [a.inWindow] } }

/-- The platform's address decode: the instance in whose window the address lies (R70), by its place in the list. -/
def Platform.locate (p : Platform) (addr : Nat) : Option Nat :=
  p.slots.findIdx? fun x => x.page = addr / Config.windowBytes

/-- `host` presents an access on the bus. An address in no window is no address of an engine (R70): the
model faults there (DESIGN CHOICE, log 14). A host that does not drive the instance
is refused (R224; spec/93_implementation_defined.md U15). -/
def Platform.present (p : Platform) (host : Nat) (a : BusAccess) : Host.Outcome Platform Fault Refusal :=
  match p.locate a.addr with
  | none => .fault .noDevice
  | some k =>
    match p.slots[k]? with
    | none => .fault .noDevice
    | some x => if x.driver = host then .next ⟨p.slots.set k (x.enqueue a)⟩ else .refused .secondHost

/-- One step of instance `k`; the others do not move (R5). Where there is no instance `k` the model faults (DESIGN CHOICE,
log 14). The instances draw their free values from the same functions, each at its own counter (DESIGN CHOICE, log 19, unsafe for claims that
compare instances): those with equal counters draw alike, where R84, R12 and R224 leave each instance free by itself. -/
def Platform.stepAt (p : Platform) (k : Nat) : Host.Outcome Platform Fault Refusal :=
  match p.slots[k]? with
  | none => .fault .noDevice
  | some x =>
    match step x.engine with
    | .next t => .next ⟨p.slots.set k { x with engine := t }⟩
    | .fault r => .fault r
    | .refused r => .refused r

end Sys2Proof.Machine
end

