-- ==== Sys2Proof/Safety.lean ====
section
/-! DEFINITION. What claims are stated in: the invariants of spec/10_state.md R51, what the host can see (spec/70_reset_and_hazards.md R251), the end
of a run, and runs without a fault mark (spec/60_exceptions.md R227). -/

namespace Sys2Proof.Machine

/-- R51 (i): "`bit_count mod 8 = 0`". -/
abbrev wholeBytes (s : State) : Prop := s.bitCount.extractLsb' 0 3 = 0

/-- R51 (iii): a waiting block means BUSY = 1, INDEX = 0 and SPENT = 1. -/
abbrev pendingOk (s : State) : Prop := s.pend = true → s.busy = true ∧ s.index = 0 ∧ s.spent = true

/-- R51 (iv) with the codes of R211: no cause without an error, and code 7 is never recorded. -/
abbrev errorRecordOk (s : State) : Prop :=
  (s.err = false → s.ecause = 0) ∧ (s.err = true → s.ecause ≠ 0) ∧ s.ecause ≠ 7

/-- R227: ERR and OVF are each backed by a fault mark. -/
abbrev marksOk (s : State) : Prop :=
  (s.err = true → ∃ m ∈ s.marks, m ≠ Mark.overflow) ∧ (s.ovf = true → Mark.overflow ∈ s.marks)

/-- The invariants of R51 together; (ii) and (v) hold by the types of INDEX and `t`. -/
abbrev State.Inv (s : State) : Prop := wholeBytes s ∧ pendingOk s ∧ errorRecordOk s ∧ marksOk s

/-- R227: the premise "no fault mark". -/
abbrev State.clean (s : State) : Prop := s.marks = []

/-- R251: the host's last access has completed and the pipeline has no enabled step. -/
abbrev State.ended (s : State) : Prop := s.queue = [] ∧ s.busy = false

/-- The registers of the host-visible state (R251); the values the host's reads returned and the fault marks are `State.reads` and `State.marks`. -/
structure HostView where
  status : Word
  bitCount : BitVec 64
  digest : Digest
  dataIn : Word
  deriving DecidableEq, Repr

/-- What the host can read (R251, spec/60_exceptions.md R225). -/
def State.hostView (s : State) : HostView := ⟨statusWord s, s.bitCount, s.h, s.dataIn⟩

/-- Byte `k` of DATA_IN, `DATA_IN[31 − 8k : 24 − 8k]` (spec/20_memory.md R82). -/
def dataLane (d : Word) (k : Nat) : Byte := d.extractLsb' (24 - 8 * k) 8

/-- Byte `k` of `BE64bytes(l)`, `l[63 − 8k : 56 − 8k]` (spec/00_scope.md R10). -/
def lengthByte (l : BitVec 64) (k : Nat) : Byte := l.extractLsb' (56 - 8 * k) 8

/-- The next step accepts the CMD write of `cw` (spec/40_commands.md R130): no reset, BUSY = 0, and the write is the host's oldest access. -/
abbrev State.acceptsNext (s : State) (cw : Word) : Prop :=
  s.resetIn = false ∧ s.busy = false ∧ s.queue.head? = some (Access.command cw)

/-- Whether an addition carries: `bit_count` plus `n` bytes passes 2^64 (spec/10_state.md R37). -/
abbrev carries (bc : BitVec 64) (n : Nat) : Bool := 2 ^ 64 ≤ bc.toNat + 8 * n

/-- The fault mark of a carry, if there is one (R227). -/
def carryMark (bc : BitVec 64) (n : Nat) : List Mark := if carries bc n then [.overflow] else []

/-- Some run from `s` ends (R251) with the message `m` finalized, as spec/40_commands.md R142 has it: SPENT = 1, INDEX = 0, `bit_count` the bits of `Pad(m)`,
and the error record as given. OVF is 1, with one fault mark, exactly when the padding carried (R133, log 15). The claim about the digest
takes "no fault mark" as its premise (spec/60_exceptions.md R227). -/
def State.hashes (s : State) (m : List Byte) (err : Bool) (ecause : BitVec 3) : Prop :=
  ∃ (n : Nat) (t : State), Host.Core.run Sys2Proof.core n s = .next t
    ∧ t.ended ∧ t.spent = true ∧ t.index = 0 ∧ t.err = err ∧ t.ecause = ecause
    ∧ t.bitCount = BitVec.ofNat 64 (8 * (pad m).length)
    ∧ t.ovf = decide (2 ^ 64 ≤ 8 * (pad m).length)
    ∧ t.marks = s.marks ++ (if 2 ^ 64 ≤ 8 * (pad m).length then [Mark.overflow] else [])
    ∧ (t.clean → t.h = digestOf m ∧ t.reads = s.reads ++ (digestOf m).toList)

/-- Two states that differ at most in what spec/10_state.md R50 calls hidden elements the current block has not written: `Buf` from INDEX on (unless
a block waits there), `t` and `V` while idle, and the schedule words that no step of this block has written. -/
structure AgreeOnWritten (s s' : State) : Prop where
  h : s.h = s'.h
  bitCount : s.bitCount = s'.bitCount
  dataIn : s.dataIn = s'.dataIn
  spent : s.spent = s'.spent
  err : s.err = s'.err
  ecause : s.ecause = s'.ecause
  ovf : s.ovf = s'.ovf
  busy : s.busy = s'.busy
  pend : s.pend = s'.pend
  queue : s.queue = s'.queue
  reads : s.reads = s'.reads
  marks : s.marks = s'.marks
  resetIn : s.resetIn = s'.resetIn
  draws : s.draws = s'.draws
  buf : ∀ j : Fin 64, j.val < s.index.toNat ∨ s.pend = true → s.buf[j] = s'.buf[j]
  t : s.busy = true → s.t = s'.t
  v : s.busy = true → s.v = s'.v
  w : s.busy = true → ∀ j : Fin 64, j.val < 16 ∨ j.val < s.t.val → s.w[j] = s'.w[j]

end Sys2Proof.Machine
end

