-- ==== Sys2Proof/Certificates/Slice0/Obligations.lean ====
section
/-! DEFINITION. The statements for the provers. Each docstring names the rules of spec/ it formalises. -/

open Sys2Proof Sys2Proof.Machine

/-! ### Encoding -/

/-- R111, R113, R120: a well-formed command's word decodes to it. -/
def Obligations.DecodeAfterEncode : Prop :=
  ∀ i : Instr, i.wf = true → decode (encode i) = .ok i

/-- R110, R120: each word has at most one meaning; what the decoder reads is well formed and has exactly that word. -/
def Obligations.EncodeAfterDecode : Prop :=
  ∀ (cw : Word) (i : Instr), decode cw = .ok i → i.wf = true ∧ encode i = cw

/-- R120: a word of one row of the opcode table matches no other row. -/
def Obligations.OpcodeRowsDisjoint : Prop :=
  ∀ (cw : Word) (i j : Instr), decode cw = .ok i → cw &&& j.rowMask = j.rowMatch → i.rowMatch = j.rowMatch

/-- R116: the legal words are exactly eight, and each decodes to its command; every other word is one of the four illegal cases, and an
idle engine rejects it: it records one of the three causes and has no other effect. -/
def Obligations.LegalWordsAreEight : Prop :=
  (decode 0x00000000 = .ok .nop ∧ decode 0x00000001 = .ok .init ∧ decode 0x00000002 = .ok (.update 0)
    ∧ decode 0x00000012 = .ok (.update 1) ∧ decode 0x00000022 = .ok (.update 2) ∧ decode 0x00000032 = .ok (.update 3)
    ∧ decode 0x00000042 = .ok (.update 4) ∧ decode 0x00000003 = .ok .final)
  ∧ (∀ cw : Word,
      cw ∉ [0x00000000, 0x00000001, 0x00000002, 0x00000012, 0x00000022, 0x00000032, 0x00000042, 0x00000003] ↔
        4 ≤ (opField cw).toNat ∨ rsvField cw ≠ 0 ∨ (opField cw = 2 ∧ 4 < (nbField cw).toNat) ∨ (opField cw ≠ 2 ∧ nbField cw ≠ 0))
  ∧ ∀ (cw : Word) (s : State),
      cw ∉ [0x00000000, 0x00000001, 0x00000002, 0x00000012, 0x00000022, 0x00000032, 0x00000042, 0x00000003] → s.busy = false →
        ∃ c ∈ [Cause.rsvOp, Cause.rsvBits, Cause.badNb], acceptWord cw s = .next (recordError c s)

/-- R115: the checks in their order, on any word and any idle state. -/
def Obligations.DecodeCheckOrder : Prop :=
  ∀ (cw : Word) (s : State), s.busy = false →
    acceptWord cw s =
      .next (
        if 4 ≤ (opField cw).toNat then recordError .rsvOp s
        else if rsvField cw ≠ 0 then recordError .rsvBits s
        else if (opField cw = 2 ∧ 4 < (nbField cw).toNat) ∨ (opField cw ≠ 2 ∧ nbField cw ≠ 0) then recordError .badNb s
        else if opField cw = 2 ∧ s.spent = true then recordError .updSpent s
        else if opField cw = 3 ∧ s.spent = true then recordError .finSpent s
        else if opField cw = 0 then s
        else if opField cw = 1 then initEffect s
        else if opField cw = 2 then absorb (updateBytes (nbField cw) s.dataIn) s
        else absorb (finalBytes s.bitCount) { s with spent := true })

/-- R111, R120: words written out from the encoding, one of each row and one of each rejection. A sanity statement. -/
def Obligations.SampleWordsDecode : Prop :=
  decode 0b00000000000000000000000000000000 = .ok .nop
  ∧ decode 0b00000000000000000000000000000001 = .ok .init
  ∧ decode 0b00000000000000000000000000110010 = .ok (.update 3)
  ∧ decode 0b00000000000000000000000000000011 = .ok .final
  ∧ decode 0b10000000000000000000000000000110 = .ok (.reservedOp47 0b10 0x8000000)
  ∧ decode 0b00000000000000000000000010001101 = .ok (.reservedOp8F 0b101 0x8)
  ∧ decode 0b00000000000000000000000010000001 = .error .rsvBits
  ∧ decode 0b00000000000000000000000001010010 = .error .badNb

/-! ### The step -/

/-- R75, R115, R130: when the host's oldest access is the CMD write of a legal word and BUSY = 0, the step is that command on the state whose
queue has moved on. -/
def Obligations.StepRunsAcceptedCommand : Prop :=
  ∀ (s : State) (cw : Word) (i : Instr), s.acceptsNext cw → decode cw = .ok i →
    step s = exec i { s with queue := s.queue.tail }

/-- R75, R79, R85, R244, R245: a held access waits, every later access behind it, and the pipeline moves. -/
def Obligations.HeldAccessKeepsWaiting : Prop :=
  ∀ (s : State) (a : Access) (rest : List Access), s.resetIn = false → s.busy = true → s.queue = a :: rest → a.heldWhileBusy = true →
    step s = .next (pipelineStep s) ∧ (pipelineStep s).queue = a :: rest ∧ (pipelineStep s).reads = s.reads

/-- R75 to R79, R214: the held accesses are the well-formed CMD writes and DIGEST reads, and no other. -/
def Obligations.HeldAccessesExactly : Prop :=
  ∀ a : Access, a.heldWhileBusy = true ↔ (∃ cw, a = Access.command cw) ∨ ∃ i, a = Access.rd (.digest i)

/-- R84, R85: with BUSY = 0 the host's oldest access takes effect, as one step. -/
def Obligations.StepPerformsOldestAccess : Prop :=
  ∀ (s : State) (a : Access) (rest : List Access), s.resetIn = false → s.busy = false → s.queue = a :: rest →
    step s = perform a { s with queue := rest }

/-- R84, R86: while BUSY = 1 an access that is not held and a pipeline step interleave freely: the step is one or the other. -/
def Obligations.FreeInterleaving : Prop :=
  ∀ (s : State) (a : Access) (rest : List Access), s.resetIn = false → s.busy = true → s.queue = a :: rest → a.heldWhileBusy = false →
    step s = .next (pipelineStep { s with draws := s.draws + 1 })
    ∨ step s = perform a { s with draws := s.draws + 1, queue := rest }

/-- R190, R226: with BUSY = 0 and no access, the engine does nothing; with BUSY = 1 and no access, the pipeline moves. -/
def Obligations.StepWithoutAccess : Prop :=
  ∀ s : State, s.resetIn = false → s.queue = [] →
    (s.busy = false → step s = .next s) ∧ (s.busy = true → step s = .next (pipelineStep s))

/-- R210, R244: from every state there is a next state: the engine never stops. -/
def Obligations.EngineNeverStops : Prop :=
  ∀ s : State, ∃ t, step s = .next t

/-! ### Host accesses -/

/-- R75 to R79, R83: every well-formed read returns its register's value and changes nothing else. -/
def Obligations.ReadValues : Prop :=
  ∀ s : State,
    perform (.rd .cmd) s = .next { s with reads := s.reads ++ [0] }
    ∧ perform (.rd .status) s = .next { s with reads := s.reads ++ [statusWord s] }
    ∧ perform (.rd .dataIn) s = .next { s with reads := s.reads ++ [s.dataIn] }
    ∧ perform (.rd .bitcntLo) s = .next { s with reads := s.reads ++ [s.bitCount.extractLsb' 0 32] }
    ∧ perform (.rd .bitcntHi) s = .next { s with reads := s.reads ++ [s.bitCount.extractLsb' 32 32] }
    ∧ ∀ i : Fin 8, perform (.rd (.digest i)) s = .next { s with reads := s.reads ++ [s.h[i]] }

/-- R48: the fields of STATUS, its reserved bits, its value after reset, what a read returns, and that a write is a bad access. -/
def Obligations.StatusWordFields : Prop :=
  (∀ s : State,
    (statusWord s).getLsbD 0 = s.busy ∧ (statusWord s).getLsbD 1 = s.spent ∧ (statusWord s).getLsbD 2 = s.err
    ∧ (statusWord s).getLsbD 3 = s.ovf ∧ (statusWord s).extractLsb' 4 4 = 0
    ∧ (statusWord s).extractLsb' 8 6 = s.bitCount.extractLsb' 3 6 ∧ (statusWord s).extractLsb' 14 2 = 0
    ∧ (statusWord s).extractLsb' 16 3 = s.ecause ∧ (statusWord s).extractLsb' 19 13 = 0
    ∧ perform (.rd .status) s = .next { s with reads := s.reads ++ [statusWord s] }
    ∧ ∀ v, perform (.wr .status v) s = .next (recordError .badAcc s))
  ∧ statusWord State.reset = 0

/-- R76: a DATA_IN write takes effect whether or not the engine is busy and is never held; a read returns it. -/
def Obligations.DataInAccess : Prop :=
  ∀ (s : State) (v : Word),
    perform (.wr .dataIn v) s = .next { s with dataIn := v }
    ∧ (Access.wr .dataIn v).heldWhileBusy = false
    ∧ perform (.rd .dataIn) s = .next { s with reads := s.reads ++ [s.dataIn] }

/-- R72, R214: exactly the accesses outside `mapped_readable` and `mapped_writable`, of another width, or at an offset that is not a multiple of
4 are bad; a bad access records BADACC, a bad read returns 0, and neither is held. -/
def Obligations.BadAccessesRecorded : Prop :=
  ∀ (off : Fin Config.windowBytes) (width : Nat) (v : Word) (s : State),
    (readTarget off width = none ↔
      width ≠ 4 ∨ off.val % 4 ≠ 0
      ∨ off.val ∉ [0x00, 0x04, 0x08, 0x10, 0x14, 0x20, 0x24, 0x28, 0x2C, 0x30, 0x34, 0x38, 0x3C])
    ∧ (writeTarget off width = none ↔ width ≠ 4 ∨ off.val % 4 ≠ 0 ∨ off.val ∉ [0x00, 0x08])
    ∧ (readTarget off width = none →
        perform (.read off width) s = .next { recordError .badAcc s with reads := s.reads ++ [0] }
        ∧ (Access.read off width).heldWhileBusy = false)
    ∧ (writeTarget off width = none →
        perform (.write off width v) s = .next (recordError .badAcc s) ∧ (Access.write off width v).heldWhileBusy = false)

/-! ### The error record and the other whole-machine rules -/

/-- R212: what recording an error writes; no step overwrites the cause or clears the record but the acceptance of INIT and reset, which
clear both. -/
def Obligations.ErrorRecordKeepsFirstCause : Prop :=
  (∀ (c : Cause) (s : State),
    recordError c s =
      { s with err := true, ecause := if s.err = true then s.ecause else c.code, marks := s.marks ++ [.error c] })
  ∧ ∀ s t : State, step s = .next t → s.err = true →
      (t.err = true ∧ t.ecause = s.ecause)
      ∨ (t.err = false ∧ t.ecause = 0 ∧ (s.resetIn = true ∨ s.acceptsNext (encode .init)))

/-- R31: the state array is written by reset, by INIT and by the add step, and by nothing else. -/
def Obligations.StateArrayWriters : Prop :=
  ∀ s t : State, step s = .next t →
    t.h = s.h
    ∨ (t.h = initialValue ∧ (s.resetIn = true ∨ s.acceptsNext (encode .init)))
    ∨ (t.h = finalAdd s.h s.v ∧ s.busy = true ∧ s.t = 64)

/-- R33: `bit_count` is written by reset and INIT, which clear it, and by the bytes an UPDATE or a FINAL absorbs, 8 bits each modulo 2^64. -/
def Obligations.BitCountWriters : Prop :=
  ∀ s t : State, step s = .next t →
    t.bitCount = s.bitCount
    ∨ (t.bitCount = 0 ∧ (s.resetIn = true ∨ s.acceptsNext (encode .init)))
    ∨ (s.spent = false
        ∧ ((∃ nb : BitVec 3, nb.toNat ≤ 4 ∧ s.acceptsNext (encode (.update nb)) ∧ t.bitCount = s.bitCount + BitVec.ofNat 64 (8 * nb.toNat))
          ∨ (s.acceptsNext (encode .final)
              ∧ t.bitCount = s.bitCount + BitVec.ofNat 64 (8 * (padLen s.index.toNat + 8)))))

/-- R38: DATA_IN is changed only by host writes to it and by reset, which writes 0. -/
def Obligations.DataInWriters : Prop :=
  ∀ s t : State, step s = .next t →
    t.dataIn = s.dataIn
    ∨ (t.dataIn = 0 ∧ s.resetIn = true)
    ∨ (s.resetIn = false ∧ s.queue.head? = some (Access.wr .dataIn t.dataIn))

/-- R35, R198: the bytes of `Buf` that are meaningful after a step (those below INDEX, or all of a waiting block) were there before, but for those
the acceptance of an UPDATE or a FINAL stored. Nothing is said of the unspecified ones. -/
def Obligations.BufferWriters : Prop :=
  ∀ s t : State, step s = .next t →
    (∀ j : Fin 64, j.val < t.index.toNat ∨ t.pend = true → t.buf[j] = s.buf[j])
    ∨ (s.spent = false
        ∧ (s.acceptsNext (encode .final) ∨ ∃ nb : BitVec 3, nb.toNat ≤ 4 ∧ s.acceptsNext (encode (.update nb))))

/-- R36, R37: SPENT goes up only by FINAL and down only by INIT and reset; OVF goes up only by a carry out of `bit_count` and down only by INIT
and reset. -/
def Obligations.SpentAndOvfWriters : Prop :=
  ∀ s t : State, step s = .next t →
    (s.spent = false → t.spent = true → s.acceptsNext (encode .final))
    ∧ (s.spent = true → t.spent = false → s.resetIn = true ∨ s.acceptsNext (encode .init))
    ∧ (s.ovf = false → t.ovf = true → t.bitCount.toNat < s.bitCount.toNat ∧ Mark.overflow ∈ t.marks)
    ∧ (s.ovf = true → t.ovf = false → s.resetIn = true ∨ s.acceptsNext (encode .init))

/-- R227: no step clears a fault mark. -/
def Obligations.MarksNeverCleared : Prop :=
  ∀ s t : State, step s = .next t → s.marks <+: t.marks

/-- R198: what the pipeline never writes. The bytes of `Buf` stay, but for those from INDEX on when the add step has issued the waiting block: they
are unspecified then (R35, log 7). -/
def Obligations.PipelineFootprint : Prop :=
  ∀ s : State,
    (pipelineStep s).bitCount = s.bitCount ∧ (pipelineStep s).dataIn = s.dataIn
    ∧ (pipelineStep s).spent = s.spent ∧ (pipelineStep s).ovf = s.ovf ∧ (pipelineStep s).err = s.err
    ∧ (pipelineStep s).ecause = s.ecause ∧ (pipelineStep s).queue = s.queue ∧ (pipelineStep s).reads = s.reads
    ∧ (pipelineStep s).marks = s.marks ∧ (pipelineStep s).resetIn = s.resetIn
    ∧ (s.busy = false ∨ s.t ≠ 64 ∨ s.pend = false → (pipelineStep s).buf = s.buf)
    ∧ ∀ j : Fin 64, j.val < s.index.toNat → (pipelineStep s).buf[j] = s.buf[j]

/-! ### The commands -/

/-- R131: NOP completes and changes nothing. -/
def Obligations.NopCompletes : Prop :=
  ∀ s : State, s.busy = false → exec .nop s = .next s

/-- R132: INIT completes in every idle state, and a second INIT changes nothing more. The buffered bytes, if there are any, become unspecified (log 7). -/
def Obligations.InitCompletes : Prop :=
  ∀ s : State, s.busy = false →
    ∃ t : State, exec .init s = .next t ∧ exec .init t = .next t
      ∧ t = { s with
          h := initialValue, bitCount := 0, spent := false, ovf := false, err := false, ecause := 0, buf := t.buf, draws := t.draws }
      ∧ (s.index = 0 → t.buf = s.buf ∧ t.draws = s.draws)

/-- R134, R133, R82: UPDATE of `nb` bytes that completes no block: the bytes below INDEX stay, the new ones stand behind
them, and nothing is said of the bytes of `Buf` that are unspecified then (R35). UPDATE 0 changes nothing. -/
def Obligations.UpdateWithinBlock : Prop :=
  ∀ (nb : BitVec 3) (s : State), s.busy = false → s.spent = false → nb.toNat ≤ 4 → s.index.toNat + nb.toNat < 64 →
    ∃ t : State, exec (.update nb) s = .next t
      ∧ (∀ j : Fin 64, j.val < s.index.toNat + nb.toNat →
          t.buf[j] = if j.val < s.index.toNat then s.buf[j] else dataLane s.dataIn (j.val - s.index.toNat))
      ∧ (nb = 0 → t = s)
      ∧ t = { s with buf := t.buf, bitCount := s.bitCount + BitVec.ofNat 64 (8 * nb.toNat), draws := t.draws }

/-- R134, R133, R191: UPDATE of `nb` bytes that completes a block: the block is issued, and the bytes after it start the next;
nothing is said of the bytes of `Buf` that are unspecified then (R35). -/
def Obligations.UpdateCompletesBlock : Prop :=
  ∀ (nb : BitVec 3) (s : State), s.busy = false → s.spent = false → nb.toNat ≤ 4 → 64 ≤ s.index.toNat + nb.toNat →
    let full : Block := Vector.ofFn fun j : Fin 64 =>
      if j.val < s.index.toNat then s.buf[j] else dataLane s.dataIn (j.val - s.index.toNat)
    ∃ t : State, exec (.update nb) s = .next t
      ∧ (∀ j : Fin 64, j.val < s.index.toNat + nb.toNat - 64 → t.buf[j] = dataLane s.dataIn (64 - s.index.toNat + j.val))
      ∧ t = { s with
          buf := t.buf
          bitCount := s.bitCount + BitVec.ofNat 64 (8 * nb.toNat)
          ovf := s.ovf || carries s.bitCount nb.toNat
          marks := s.marks ++ carryMark s.bitCount nb.toNat
          w := loadBlock full s.w
          v := Work.load s.h
          t := 0
          busy := true
          draws := t.draws }

/-- R134, R115, R215: the UPDATEs that are rejected; nothing is absorbed. -/
def Obligations.UpdateRejections : Prop :=
  ∀ (nb : BitVec 3) (s : State), s.busy = false →
    (4 < nb.toNat → exec (.update nb) s = .next (recordError .badNb s))
    ∧ (nb.toNat ≤ 4 → s.spent = true → exec (.update nb) s = .next (recordError .updSpent s))

/-- R138, R139, R140: FINAL with INDEX < 56 completes one block, issued at acceptance. Nothing is said of `Buf`, all of which is unspecified then
(R35: INDEX = 0 and PEND = 0). -/
def Obligations.FinalOneBlock : Prop :=
  ∀ s : State, s.busy = false → s.spent = false → s.index.toNat < 56 →
    let full : Block := Vector.ofFn fun j : Fin 64 =>
      if j.val < s.index.toNat then s.buf[j]
      else if j.val = s.index.toNat then 0x80
      else if j.val < 56 then 0x00 else lengthByte s.bitCount (j.val - 56)
    ∃ t : State, exec .final s = .next t
      ∧ t = { s with
          spent := true
          buf := t.buf
          bitCount := s.bitCount + BitVec.ofNat 64 (8 * (64 - s.index.toNat))
          ovf := s.ovf || carries s.bitCount (64 - s.index.toNat)
          marks := s.marks ++ carryMark s.bitCount (64 - s.index.toNat)
          w := loadBlock full s.w
          v := Work.load s.h
          t := 0
          busy := true
          draws := t.draws }

/-- R138, R139, R140: FINAL with INDEX ≥ 56 completes two blocks: block A is issued, block B waits in `Buf`. -/
def Obligations.FinalTwoBlocks : Prop :=
  ∀ s : State, s.busy = false → s.spent = false → 56 ≤ s.index.toNat →
    let blockA : Block := Vector.ofFn fun j : Fin 64 =>
      if j.val < s.index.toNat then s.buf[j] else if j.val = s.index.toNat then 0x80 else 0x00
    exec .final s = .next { s with
      spent := true
      buf := Vector.ofFn fun j : Fin 64 => if j.val < 56 then 0x00 else lengthByte s.bitCount (j.val - 56)
      bitCount := s.bitCount + BitVec.ofNat 64 (8 * (128 - s.index.toNat))
      ovf := s.ovf || carries s.bitCount (128 - s.index.toNat)
      marks := s.marks ++ carryMark s.bitCount (128 - s.index.toNat)
      w := loadBlock blockA s.w
      v := Work.load s.h
      t := 0
      busy := true
      pend := true }

/-- R138, R215: a second FINAL is rejected and absorbs nothing. -/
def Obligations.FinalRejected : Prop :=
  ∀ s : State, s.busy = false → s.spent = true → exec .final s = .next (recordError .finSpent s)

/-- R115, R116: a word with a reserved OP completes with its own effect, the record of RSVOP, whatever its other bits are. -/
def Obligations.ReservedOpRejected : Prop :=
  ∀ s : State, s.busy = false →
    (∀ low high, exec (.reservedOp47 low high) s = .next (recordError .rsvOp s))
    ∧ ∀ low high, exec (.reservedOp8F low high) s = .next (recordError .rsvOp s)

/-- R130, R244: a command presented while BUSY = 1 has no effect yet. That `exec` answers this with the same state as its next state is the model's
reading (DEDUCED, log 8). -/
def Obligations.HeldCommandHasNoEffect : Prop :=
  ∀ (i : Instr) (s : State), s.busy = true → exec i s = .next s

/-- R133, R134, R135: the frame of UPDATE: everything it does not name stays, and every byte of `Buf` that is meaningful after it (R35) but the `nb` it
stores to; all of `Buf` when it stores none. That a held UPDATE answers the same state is the model's reading (DEDUCED, log 8). -/
def Obligations.UpdateFrame : Prop :=
  ∀ (nb : BitVec 3) (s t : State), exec (.update nb) s = .next t →
    t.h = s.h ∧ t.dataIn = s.dataIn ∧ t.spent = s.spent ∧ t.pend = s.pend
    ∧ t.queue = s.queue ∧ t.reads = s.reads ∧ t.resetIn = s.resetIn
    ∧ (nb.toNat ≤ 4 → s.spent = false → t.err = s.err ∧ t.ecause = s.ecause)
    ∧ (s.index.toNat + nb.toNat < 64 → t.ovf = s.ovf ∧ t.busy = s.busy ∧ t.t = s.t ∧ t.v = s.v ∧ t.w = s.w)
    ∧ (s.busy = true ∨ s.spent = true ∨ 4 < nb.toNat ∨ nb = 0 → t.buf = s.buf ∧ t.draws = s.draws)
    ∧ ∀ j : Fin 64, j.val < t.index.toNat → (∀ k < nb.toNat, (s.index.toNat + k) % 64 ≠ j.val) → t.buf[j] = s.buf[j]

/-- R138, R139: the frame of FINAL. A FINAL of two blocks stores to every byte of `Buf`, a FINAL of one block leaves no meaningful byte there (R35), a
rejected or held one leaves them all. That a held FINAL answers the same state is the model's reading (DEDUCED, log 8). -/
def Obligations.FinalFrame : Prop :=
  ∀ s t : State, exec .final s = .next t →
    t.h = s.h ∧ t.dataIn = s.dataIn
    ∧ t.queue = s.queue ∧ t.reads = s.reads ∧ t.resetIn = s.resetIn
    ∧ (s.spent = false → t.err = s.err ∧ t.ecause = s.ecause)
    ∧ (s.busy = true ∨ s.spent = true →
        t.bitCount = s.bitCount ∧ t.buf = s.buf ∧ t.ovf = s.ovf ∧ t.spent = s.spent ∧ t.busy = s.busy ∧ t.pend = s.pend
        ∧ t.t = s.t ∧ t.v = s.v ∧ t.w = s.w ∧ t.draws = s.draws)
    ∧ (s.index.toNat < 56 → t.pend = s.pend)
    ∧ (s.busy = false → s.spent = false → t.index = 0)

/-- R131, R132, R212: the frames of NOP, INIT and the two reserved rows. NOP, a reserved row, and an INIT that is held or has
INDEX = 0 leave `Buf` as it is; of `Buf` after any other INIT, all of it unspecified (R35, log 7), nothing is said. That a held command answers the same state is the model's reading (DEDUCED, log 8). -/
def Obligations.NonAbsorbingFrames : Prop :=
  ∀ (i : Instr) (s t : State), exec i s = .next t →
    (i = .nop → t = s)
    ∧ (i = .init →
        t.dataIn = s.dataIn ∧ t.busy = s.busy ∧ t.pend = s.pend ∧ t.t = s.t ∧ t.w = s.w ∧ t.v = s.v
        ∧ t.queue = s.queue ∧ t.reads = s.reads ∧ t.marks = s.marks ∧ t.resetIn = s.resetIn
        ∧ (s.busy = true ∨ s.index = 0 → t.buf = s.buf ∧ t.draws = s.draws))
    ∧ ((∃ low high, i = .reservedOp47 low high) ∨ (∃ low high, i = .reservedOp8F low high) →
        t = { s with err := t.err, ecause := t.ecause, marks := t.marks })

/-- R137, R142: PadLen, with the correction of spec/90_conflicts.md C1; the bytes FINAL absorbs; the padding is at least the marker and at most 64
bytes, and with the length it fills whole blocks. -/
def Obligations.PaddingFillsBlocks : Prop :=
  (∀ idx : Nat, idx < 64 →
    (idx < 56 → padLen idx = 56 - idx ∧ padLen idx + 8 = 64 - idx ∧ 1 ≤ padLen idx ∧ padLen idx ≤ 56)
    ∧ (56 ≤ idx → padLen idx = 120 - idx ∧ padLen idx + 8 = 128 - idx ∧ 57 ≤ padLen idx ∧ padLen idx ≤ 64)
    ∧ (idx + (padLen idx + 8)) % 64 = 0)
  ∧ (∀ l : BitVec 64, (finalBytes l).length = padLen (indexOf l).toNat + 8)
  ∧ ∀ m : List Byte, (pad m).length % 64 = 0 ∧ m.length + 9 ≤ (pad m).length ∧ (pad m).length ≤ m.length + 72

/-- R10, R82, R114: the bytes an UPDATE absorbs are the lanes of DATA_IN in their order; four lanes make up the word again, and four bytes written as
one word come back in their order. -/
def Obligations.DataInLanes : Prop :=
  (∀ (nb : BitVec 3) (d : Word), nb.toNat ≤ 4 → updateBytes nb d = (List.range nb.toNat).map (dataLane d))
  ∧ (∀ d : Word, be32 (dataLane d 0) (dataLane d 1) (dataLane d 2) (dataLane d 3) = d)
  ∧ ∀ b0 b1 b2 b3 : Byte, (List.range 4).map (dataLane (be32 b0 b1 b2 b3)) = [b0, b1, b2, b3]

/-- R81, R80: byte `4·i + j` of the digest. -/
def Obligations.DigestByteOrder : Prop :=
  ∀ x : Digest, (digestBytes x).length = 32
    ∧ ∀ (i : Nat) (hi : i < 8) (j : Nat), j < 4 → (digestBytes x)[4 * i + j]? = some (x[i].extractLsb' (24 - 8 * j) 8)

/-! ### The transform -/

/-- R9, R160 to R163: the four sigma functions, bit by bit, and the values the rules give. -/
def Obligations.SigmaBits : Prop :=
  (∀ (x : Word) (i : Nat), i < 32 →
    (smallSigma0 x).getLsbD i = ((x.getLsbD ((i + 7) % 32) ^^ x.getLsbD ((i + 18) % 32)) ^^ x.getLsbD (i + 3))
    ∧ (smallSigma1 x).getLsbD i = ((x.getLsbD ((i + 17) % 32) ^^ x.getLsbD ((i + 19) % 32)) ^^ x.getLsbD (i + 10))
    ∧ (bigSigma0 x).getLsbD i = ((x.getLsbD ((i + 2) % 32) ^^ x.getLsbD ((i + 13) % 32)) ^^ x.getLsbD ((i + 22) % 32))
    ∧ (bigSigma1 x).getLsbD i = ((x.getLsbD ((i + 6) % 32) ^^ x.getLsbD ((i + 11) % 32)) ^^ x.getLsbD ((i + 25) % 32)))
  ∧ (smallSigma0 0 = 0 ∧ smallSigma0 0xFFFFFFFF = 0x1FFFFFFF ∧ smallSigma0 0x80000000 = 0x11002000)
  ∧ (smallSigma1 0xFFFFFFFF = 0x003FFFFF ∧ smallSigma1 0x80000000 = 0x00205000)
  ∧ (bigSigma0 0xFFFFFFFF = 0xFFFFFFFF ∧ bigSigma0 0 = 0 ∧ bigSigma0 0x80000000 = 0x20040200)
  ∧ (bigSigma1 0xFFFFFFFF = 0xFFFFFFFF ∧ bigSigma1 0 = 0 ∧ bigSigma1 0x80000000 = 0x02100040)

/-- R164, R165: "Each bit of `x` chooses the bit of `y` (when 1) or of `z` (when 0)"; "Each bit is the majority of the three input bits";
their definitions, and the values the rules give. -/
def Obligations.ChooseAndMajority : Prop :=
  (∀ (x y z : Word) (i : Nat), i < 32 →
    (ch x y z).getLsbD i = (if x.getLsbD i then y.getLsbD i else z.getLsbD i)
    ∧ (maj x y z).getLsbD i = decide (2 ≤ (x.getLsbD i).toNat + (y.getLsbD i).toNat + (z.getLsbD i).toNat))
  ∧ (∀ x y z : Word, ch x y z = (x &&& y) ^^^ (~~~x &&& z) ∧ maj x y z = (x &&& y) ^^^ (x &&& z) ^^^ (y &&& z))
  ∧ (∀ x y z : Word, ch 0xFFFFFFFF y z = y ∧ ch 0 y z = z ∧ maj x x y = x)
  ∧ ch 0xF0F0F0F0 0x12345678 0x9ABCDEF0 = 0x1A3C5E70 ∧ maj 0xF0F0F0F0 0xFF00FF00 0x0F0F0F0F = 0xFF00FF00

/-- R169: the first 16 schedule words are the block's big-endian words, and each later one is the four-term sum; an all-zero block has an
all-zero schedule; the example words of the block of "abc". -/
def Obligations.ScheduleRecurrence : Prop :=
  (∀ blk : Block,
    (∀ (j : Nat) (hj : j < 16), (schedule blk)[j] = be32 blk[4 * j] blk[4 * j + 1] blk[4 * j + 2] blk[4 * j + 3])
    ∧ ∀ (t : Nat) (h16 : 16 ≤ t) (h64 : t < 64),
        (schedule blk)[t] =
          smallSigma1 (schedule blk)[t - 2] + (schedule blk)[t - 7] + smallSigma0 (schedule blk)[t - 15] + (schedule blk)[t - 16])
  ∧ schedule (Vector.replicate 64 0) = Vector.replicate 64 0
  ∧ (schedule (blockOf (pad [0x61, 0x62, 0x63])))[16] = 0x61626380
  ∧ (schedule (blockOf (pad [0x61, 0x62, 0x63])))[17] = 0x000f0000
  ∧ (schedule (blockOf (pad [0x61, 0x62, 0x63])))[63] = 0x12b1edeb

/-! ### The pipeline -/

/-- R192: a round step writes `W[t]` when t ≥ 16, the eight working variables and `t`, and nothing else; the first round step of the block of
"abc". -/
def Obligations.RoundStepResult : Prop :=
  (∀ (s : State) (h : s.t.val < 64), s.busy = true →
    ∃ w' : Sched,
      (∀ (j : Nat) (hj : j < 64), ¬ (j = s.t.val ∧ 16 ≤ j) → w'[j] = s.w[j])
      ∧ (∀ h16 : 16 ≤ s.t.val,
          w'[s.t.val] = smallSigma1 s.w[s.t.val - 2] + s.w[s.t.val - 7] + smallSigma0 s.w[s.t.val - 15] + s.w[s.t.val - 16])
      ∧ (let t1 := s.v.h + bigSigma1 s.v.e + ch s.v.e s.v.f s.v.g + roundConstant ⟨s.t.val, h⟩ + w'[s.t.val]
         let t2 := bigSigma0 s.v.a + maj s.v.a s.v.b s.v.c
         pipelineStep s = { s with
           w := w'
           v := ⟨t1 + t2, s.v.a, s.v.b, s.v.c, s.v.d + t1, s.v.e, s.v.f, s.v.g⟩
           t := ⟨s.t.val + 1, by omega⟩ }))
  ∧ (pipelineStep (issue { State.reset with buf := blockOf (pad [0x61, 0x62, 0x63]) })).v
      = ⟨0x5d6aebcd, 0x6a09e667, 0xbb67ae85, 0x3c6ef372, 0xfa2a4622, 0x510e527f, 0x9b05688c, 0x1f83d9ab⟩
  ∧ (pipelineStep (issue { State.reset with buf := blockOf (pad [0x61, 0x62, 0x63]) })).t = 1

/-- R193, R171: the add step folds `V` into `H` modulo 2^32, then issues the waiting block with the new `H` and stays busy, or goes idle. Of the
values that become unspecified (R193; R35 for `Buf`) it says nothing. -/
def Obligations.AddStepResult : Prop :=
  ∀ s : State, s.busy = true → s.t = 64 →
    (pipelineStep s).h = #v[s.h[0] + s.v.a, s.h[1] + s.v.b, s.h[2] + s.v.c, s.h[3] + s.v.d,
                            s.h[4] + s.v.e, s.h[5] + s.v.f, s.h[6] + s.v.g, s.h[7] + s.v.h]
    ∧ (pipelineStep s).pend = false
    ∧ (s.pend = false → (pipelineStep s).busy = false)
    ∧ (s.pend = true →
        pipelineStep s = { issue { s with h := finalAdd s.h s.v, pend := false } with buf := (pipelineStep s).buf, draws := (pipelineStep s).draws })

/-- R191, R80: Issue copies the block's big-endian words and `H`, starts the round counter and sets BUSY; every other element stays. -/
def Obligations.IssueResult : Prop :=
  ∀ s : State,
    (∀ (j : Nat) (hj : j < 16), (issue s).w[j] = be32 s.buf[4 * j] s.buf[4 * j + 1] s.buf[4 * j + 2] s.buf[4 * j + 3])
    ∧ (∀ (j : Nat) (hj : j < 64), 16 ≤ j → (issue s).w[j] = s.w[j])
    ∧ issue s = { s with
        w := (issue s).w
        v := ⟨s.h[0], s.h[1], s.h[2], s.h[3], s.h[4], s.h[5], s.h[6], s.h[7]⟩
        t := 0
        busy := true }

/-- R197: a busy pipeline goes idle after exactly the steps that are left of its block, and 65 more when a second block waits. -/
def Obligations.DrainTakesExactSteps : Prop :=
  ∀ s : State, s.busy = true →
    let n := (if s.pend then 2 * Config.stepsPerBlock else Config.stepsPerBlock) - s.t.val
    (pipelineSteps n s).busy = false ∧ ∀ k < n, (pipelineSteps k s).busy = true

/-- R194: the pipeline computes the one-shot transform, for one block and for a block with a second one waiting behind it. -/
def Obligations.PipelineComputesCompress : Prop :=
  ∀ s : State, s.pend = false →
    (let u := pipelineSteps Config.stepsPerBlock (issue s)
     u.h = compress s.h s.buf ∧ u.busy = false ∧ u.pend = false)
    ∧ ∀ second : Block,
        let u := pipelineSteps (2 * Config.stepsPerBlock) { issue s with buf := second, pend := true }
        u.h = compress (compress s.h s.buf) second ∧ u.busy = false ∧ u.pend = false

/-- R196: a round step reads no schedule word but `W[t]`, `W[t−2]`, `W[t−7]`, `W[t−15]` and `W[t−16]`. -/
def Obligations.ScheduleWindow : Prop :=
  ∀ (s s' : State), s.busy = true → s'.busy = true → s.t.val < 64 → s'.t = s.t → s'.v = s.v →
    (s.t.val < 16 → ∀ j : Fin 64, j.val = s.t.val → s'.w[j] = s.w[j]) →
    (16 ≤ s.t.val → ∀ j : Fin 64, j.val + 2 = s.t.val ∨ j.val + 7 = s.t.val ∨ j.val + 15 = s.t.val ∨ j.val + 16 = s.t.val →
      s'.w[j] = s.w[j]) →
    (pipelineStep s').v = (pipelineStep s).v
    ∧ ∀ j : Fin 64, j.val = s.t.val → (pipelineStep s').w[j] = (pipelineStep s).w[j]

/-- R244, R245: a held access completes: within 130 steps BUSY is 0 and the access is still the oldest, so the next step takes it. -/
def Obligations.HeldAccessMeetsIdleEngine : Prop :=
  ∀ (s : State) (a : Access) (rest : List Access), s.resetIn = false → s.busy = true → s.queue = a :: rest → a.heldWhileBusy = true →
    ∃ (n : Nat) (u : State), n ≤ 130 ∧ Host.Core.run Sys2Proof.core n s = .next u
      ∧ u.busy = false ∧ u.queue = a :: rest ∧ step u = perform a { u with queue := rest }

/-! ### Invariants -/

/-- R51: every step keeps the invariants. -/
def Obligations.StepKeepsInvariant : Prop :=
  ∀ s t : State, s.Inv → step s = .next t → t.Inv

/-- R51: the invariants hold after reset. -/
def Obligations.ResetMeetsInvariant : Prop :=
  State.reset.Inv

/-- R50: no step reads a hidden element the current block has not written: two states that differ only in such elements step to two states that
do, so the host sees the same from both, for ever. -/
def Obligations.UnwrittenElementsNeverRead : Prop :=
  ∀ s s' t t' : State, s.Inv → s'.Inv → AgreeOnWritten s s' → step s = .next t → step s' = .next t' →
    AgreeOnWritten t t' ∧ t.hostView = t'.hostView

/-! ### Whole messages -/

/-- R142, R136, R141, R119, R227: a message in any chunks, `FINAL` and `READDIGEST`, after `INIT` on any idle engine, or with no `INIT` on an engine as
reset leaves it (ERR then unchanged), on a run with no fault mark so far, however the pipeline interleaves: some run ends with the message
finalized, and if no fault mark was made, the message's digest is in the state array and in what the host read. R142 gives OVF = 0;
the carry that R133 sets when the padding of a message just short of 2^64 bits passes 2^64 is stated as R133 has it (DEDUCED, log 15),
and then no digest is claimed (spec/93_implementation_defined.md U3). -/
def Obligations.HashProgramGivesDigest : Prop :=
  ∀ (cs : List (List Byte)) (s : State),
    8 * cs.flatten.length < 2 ^ 64 → s.resetIn = false → s.busy = false → s.pend = false → s.clean →
    (s.queue = hashAccesses cs → s.hashes cs.flatten false 0)
    ∧ (s.queue = messageAccesses cs → s.h = initialValue → s.bitCount = 0 → s.spent = false → s.ovf = false →
        s.hashes cs.flatten s.err s.ecause)

/-! ### Reset -/

/-- R49: what reset leaves, where the spec gives a value. -/
def Obligations.ResetState : Prop :=
  State.reset.h = initialValue ∧ State.reset.bitCount = 0 ∧ State.reset.dataIn = 0 ∧ State.reset.spent = false
  ∧ State.reset.err = false ∧ State.reset.ecause = 0 ∧ State.reset.ovf = false ∧ State.reset.busy = false
  ∧ State.reset.pend = false ∧ statusWord State.reset = 0

/-- R240: the reset event, at any time: the values the spec gives, and a held access is aborted and returns nothing. That the reads returned so
far, the fault marks and the accesses not held stay is the model's choice (log 6). -/
def Obligations.ResetEventResult : Prop :=
  ∀ s : State, s.resetIn = true →
    ∃ t : State, step s = .next t
      ∧ t.h = initialValue ∧ t.bitCount = 0 ∧ t.dataIn = 0 ∧ t.spent = false ∧ t.err = false ∧ t.ecause = 0 ∧ t.ovf = false
      ∧ t.busy = false ∧ t.pend = false ∧ t.resetIn = false ∧ t.reads = s.reads ∧ t.marks = s.marks
      ∧ (∀ a rest, s.queue = a :: rest → s.busy = true → a.heldWhileBusy = true → t.queue = rest)
      ∧ (∀ a rest, s.queue = a :: rest → s.busy = false ∨ a.heldWhileBusy = false → t.queue = s.queue)
      ∧ (s.queue = [] → t.queue = [])

/-- R241: after reset the host sees what it sees after INIT from any idle state, except that DATA_IN is 0. -/
def Obligations.ResetMatchesInit : Prop :=
  ∀ s idle t u : State, s.resetIn = true → idle.busy = false → step s = .next t → exec .init idle = .next u →
    t.hostView = { u.hostView with dataIn := 0 }

/-! ### The platform -/

/-- R5, R224: a step of one instance leaves every other instance as it is. -/
def Obligations.InstancesIndependent : Prop :=
  ∀ (p q : Platform) (k : Nat), p.stepAt k = .next q →
    q.slots.length = p.slots.length ∧ q.slots.map Slot.page = p.slots.map Slot.page ∧ ∀ j, j ≠ k → q.slots[j]? = p.slots[j]?

/-- R70, R85: an access in an instance's window by the instance's host joins that instance's queue as its last access, whatever the other instances.
R224 (spec/93_implementation_defined.md U15): by another host it is refused. That an access to an address in no window is the fault `noDevice` is the
model's choice (DESIGN CHOICE, log 14): R70 only says which addresses are an engine's. -/
def Obligations.PresentRoutesByWindow : Prop :=
  ∀ (p : Platform) (host : Nat) (a : BusAccess), p.wf →
    ((∀ x ∈ p.slots, a.addr < x.base ∨ x.base + 0x80 ≤ a.addr) → p.present host a = .fault .noDevice)
    ∧ ∀ (k : Nat) (x : Slot), p.slots[k]? = some x → x.base ≤ a.addr → a.addr < x.base + 0x80 →
        (x.driver ≠ host → p.present host a = .refused .secondHost)
        ∧ (x.driver = host → p.present host a = .next ⟨p.slots.set k (x.enqueue a)⟩)
end

