-- ==== Sys2Proof/Laws/State.lean ====
section
/-! SUPPORT. Each shared update of the state, field by field: what it writes and what it leaves. All hold by unfolding the update once. -/

namespace Sys2Proof.Machine

variable (s : State)

@[simp] theorem recordError_h (c : Cause) : (recordError c s).h = s.h := rfl
@[simp] theorem recordError_bitCount (c : Cause) : (recordError c s).bitCount = s.bitCount := rfl
@[simp] theorem recordError_buf (c : Cause) : (recordError c s).buf = s.buf := rfl
@[simp] theorem recordError_dataIn (c : Cause) : (recordError c s).dataIn = s.dataIn := rfl
@[simp] theorem recordError_spent (c : Cause) : (recordError c s).spent = s.spent := rfl
@[simp] theorem recordError_err (c : Cause) : (recordError c s).err = true := rfl
@[simp] theorem recordError_ecause (c : Cause) : (recordError c s).ecause = if s.err then s.ecause else c.code := rfl
@[simp] theorem recordError_ovf (c : Cause) : (recordError c s).ovf = s.ovf := rfl
@[simp] theorem recordError_busy (c : Cause) : (recordError c s).busy = s.busy := rfl
@[simp] theorem recordError_pend (c : Cause) : (recordError c s).pend = s.pend := rfl
@[simp] theorem recordError_t (c : Cause) : (recordError c s).t = s.t := rfl
@[simp] theorem recordError_w (c : Cause) : (recordError c s).w = s.w := rfl
@[simp] theorem recordError_v (c : Cause) : (recordError c s).v = s.v := rfl
@[simp] theorem recordError_queue (c : Cause) : (recordError c s).queue = s.queue := rfl
@[simp] theorem recordError_reads (c : Cause) : (recordError c s).reads = s.reads := rfl
@[simp] theorem recordError_marks (c : Cause) : (recordError c s).marks = s.marks ++ [.error c] := rfl
@[simp] theorem recordError_resetIn (c : Cause) : (recordError c s).resetIn = s.resetIn := rfl
@[simp] theorem recordError_draws (c : Cause) : (recordError c s).draws = s.draws := rfl

@[simp] theorem drawn_h : (drawn s).h = s.h := rfl
@[simp] theorem drawn_bitCount : (drawn s).bitCount = s.bitCount := rfl
@[simp] theorem drawn_buf : (drawn s).buf = s.buf := rfl
@[simp] theorem drawn_dataIn : (drawn s).dataIn = s.dataIn := rfl
@[simp] theorem drawn_spent : (drawn s).spent = s.spent := rfl
@[simp] theorem drawn_err : (drawn s).err = s.err := rfl
@[simp] theorem drawn_ecause : (drawn s).ecause = s.ecause := rfl
@[simp] theorem drawn_ovf : (drawn s).ovf = s.ovf := rfl
@[simp] theorem drawn_busy : (drawn s).busy = s.busy := rfl
@[simp] theorem drawn_pend : (drawn s).pend = s.pend := rfl
@[simp] theorem drawn_t : (drawn s).t = s.t := rfl
@[simp] theorem drawn_w : (drawn s).w = s.w := rfl
@[simp] theorem drawn_v : (drawn s).v = s.v := rfl
@[simp] theorem drawn_queue : (drawn s).queue = s.queue := rfl
@[simp] theorem drawn_reads : (drawn s).reads = s.reads := rfl
@[simp] theorem drawn_marks : (drawn s).marks = s.marks := rfl
@[simp] theorem drawn_resetIn : (drawn s).resetIn = s.resetIn := rfl
@[simp] theorem drawn_draws : (drawn s).draws = s.draws + 1 := rfl

@[simp] theorem returnWord_h (x : Word) : (returnWord x s).h = s.h := rfl
@[simp] theorem returnWord_bitCount (x : Word) : (returnWord x s).bitCount = s.bitCount := rfl
@[simp] theorem returnWord_buf (x : Word) : (returnWord x s).buf = s.buf := rfl
@[simp] theorem returnWord_dataIn (x : Word) : (returnWord x s).dataIn = s.dataIn := rfl
@[simp] theorem returnWord_spent (x : Word) : (returnWord x s).spent = s.spent := rfl
@[simp] theorem returnWord_err (x : Word) : (returnWord x s).err = s.err := rfl
@[simp] theorem returnWord_ecause (x : Word) : (returnWord x s).ecause = s.ecause := rfl
@[simp] theorem returnWord_ovf (x : Word) : (returnWord x s).ovf = s.ovf := rfl
@[simp] theorem returnWord_busy (x : Word) : (returnWord x s).busy = s.busy := rfl
@[simp] theorem returnWord_pend (x : Word) : (returnWord x s).pend = s.pend := rfl
@[simp] theorem returnWord_t (x : Word) : (returnWord x s).t = s.t := rfl
@[simp] theorem returnWord_w (x : Word) : (returnWord x s).w = s.w := rfl
@[simp] theorem returnWord_v (x : Word) : (returnWord x s).v = s.v := rfl
@[simp] theorem returnWord_queue (x : Word) : (returnWord x s).queue = s.queue := rfl
@[simp] theorem returnWord_reads (x : Word) : (returnWord x s).reads = s.reads ++ [x] := rfl
@[simp] theorem returnWord_marks (x : Word) : (returnWord x s).marks = s.marks := rfl
@[simp] theorem returnWord_resetIn (x : Word) : (returnWord x s).resetIn = s.resetIn := rfl
@[simp] theorem returnWord_draws (x : Word) : (returnWord x s).draws = s.draws := rfl

@[simp] theorem issue_h : (issue s).h = s.h := rfl
@[simp] theorem issue_bitCount : (issue s).bitCount = s.bitCount := rfl
@[simp] theorem issue_buf : (issue s).buf = s.buf := rfl
@[simp] theorem issue_dataIn : (issue s).dataIn = s.dataIn := rfl
@[simp] theorem issue_spent : (issue s).spent = s.spent := rfl
@[simp] theorem issue_err : (issue s).err = s.err := rfl
@[simp] theorem issue_ecause : (issue s).ecause = s.ecause := rfl
@[simp] theorem issue_ovf : (issue s).ovf = s.ovf := rfl
@[simp] theorem issue_busy : (issue s).busy = true := rfl
@[simp] theorem issue_pend : (issue s).pend = s.pend := rfl
@[simp] theorem issue_t : (issue s).t = 0 := rfl
@[simp] theorem issue_w : (issue s).w = loadBlock s.buf s.w := rfl
@[simp] theorem issue_v : (issue s).v = Work.load s.h := rfl
@[simp] theorem issue_queue : (issue s).queue = s.queue := rfl
@[simp] theorem issue_reads : (issue s).reads = s.reads := rfl
@[simp] theorem issue_marks : (issue s).marks = s.marks := rfl
@[simp] theorem issue_resetIn : (issue s).resetIn = s.resetIn := rfl
@[simp] theorem issue_draws : (issue s).draws = s.draws := rfl

@[simp] theorem storeByte_h (b : Byte) : (storeByte b s).h = s.h := rfl
@[simp] theorem storeByte_bitCount (b : Byte) : (storeByte b s).bitCount = addByte s.bitCount := rfl
@[simp] theorem storeByte_buf (b : Byte) : (storeByte b s).buf = s.buf.set s.index.toNat b s.index.isLt := rfl
@[simp] theorem storeByte_dataIn (b : Byte) : (storeByte b s).dataIn = s.dataIn := rfl
@[simp] theorem storeByte_spent (b : Byte) : (storeByte b s).spent = s.spent := rfl
@[simp] theorem storeByte_err (b : Byte) : (storeByte b s).err = s.err := rfl
@[simp] theorem storeByte_ecause (b : Byte) : (storeByte b s).ecause = s.ecause := rfl
@[simp] theorem storeByte_ovf (b : Byte) : (storeByte b s).ovf = (s.ovf || addByteCarry s.bitCount) := rfl
@[simp] theorem storeByte_busy (b : Byte) : (storeByte b s).busy = s.busy := rfl
@[simp] theorem storeByte_pend (b : Byte) : (storeByte b s).pend = s.pend := rfl
@[simp] theorem storeByte_t (b : Byte) : (storeByte b s).t = s.t := rfl
@[simp] theorem storeByte_w (b : Byte) : (storeByte b s).w = s.w := rfl
@[simp] theorem storeByte_v (b : Byte) : (storeByte b s).v = s.v := rfl
@[simp] theorem storeByte_queue (b : Byte) : (storeByte b s).queue = s.queue := rfl
@[simp] theorem storeByte_reads (b : Byte) : (storeByte b s).reads = s.reads := rfl
@[simp] theorem storeByte_marks (b : Byte) : (storeByte b s).marks = if addByteCarry s.bitCount then s.marks ++ [.overflow] else s.marks := rfl
@[simp] theorem storeByte_resetIn (b : Byte) : (storeByte b s).resetIn = s.resetIn := rfl
@[simp] theorem storeByte_draws (b : Byte) : (storeByte b s).draws = s.draws := rfl

/-- What INIT leaves in `Buf`: nothing becomes unspecified when INDEX = 0. -/
theorem initEffect_cases : (s.index = 0 ∧ initEffect s = initWrites s) ∨ (s.index ≠ 0 ∧ initEffect s = forgetTail (initWrites s)) := by
  by_cases h : s.index = 0
  · exact .inl ⟨h, if_pos h⟩
  · exact .inr ⟨h, if_neg h⟩

@[simp] theorem initEffect_h : (initEffect s).h = initialValue := by rcases initEffect_cases s with ⟨-, h⟩ | ⟨-, h⟩ <;> rw [h] <;> rfl
@[simp] theorem initEffect_bitCount : (initEffect s).bitCount = 0 := by rcases initEffect_cases s with ⟨-, h⟩ | ⟨-, h⟩ <;> rw [h] <;> rfl
@[simp] theorem initEffect_dataIn : (initEffect s).dataIn = s.dataIn := by rcases initEffect_cases s with ⟨-, h⟩ | ⟨-, h⟩ <;> rw [h] <;> rfl
@[simp] theorem initEffect_spent : (initEffect s).spent = false := by rcases initEffect_cases s with ⟨-, h⟩ | ⟨-, h⟩ <;> rw [h] <;> rfl
@[simp] theorem initEffect_err : (initEffect s).err = false := by rcases initEffect_cases s with ⟨-, h⟩ | ⟨-, h⟩ <;> rw [h] <;> rfl
@[simp] theorem initEffect_ecause : (initEffect s).ecause = 0 := by rcases initEffect_cases s with ⟨-, h⟩ | ⟨-, h⟩ <;> rw [h] <;> rfl
@[simp] theorem initEffect_ovf : (initEffect s).ovf = false := by rcases initEffect_cases s with ⟨-, h⟩ | ⟨-, h⟩ <;> rw [h] <;> rfl
@[simp] theorem initEffect_busy : (initEffect s).busy = s.busy := by rcases initEffect_cases s with ⟨-, h⟩ | ⟨-, h⟩ <;> rw [h] <;> rfl
@[simp] theorem initEffect_pend : (initEffect s).pend = s.pend := by rcases initEffect_cases s with ⟨-, h⟩ | ⟨-, h⟩ <;> rw [h] <;> rfl
@[simp] theorem initEffect_t : (initEffect s).t = s.t := by rcases initEffect_cases s with ⟨-, h⟩ | ⟨-, h⟩ <;> rw [h] <;> rfl
@[simp] theorem initEffect_w : (initEffect s).w = s.w := by rcases initEffect_cases s with ⟨-, h⟩ | ⟨-, h⟩ <;> rw [h] <;> rfl
@[simp] theorem initEffect_v : (initEffect s).v = s.v := by rcases initEffect_cases s with ⟨-, h⟩ | ⟨-, h⟩ <;> rw [h] <;> rfl
@[simp] theorem initEffect_queue : (initEffect s).queue = s.queue := by rcases initEffect_cases s with ⟨-, h⟩ | ⟨-, h⟩ <;> rw [h] <;> rfl
@[simp] theorem initEffect_reads : (initEffect s).reads = s.reads := by rcases initEffect_cases s with ⟨-, h⟩ | ⟨-, h⟩ <;> rw [h] <;> rfl
@[simp] theorem initEffect_marks : (initEffect s).marks = s.marks := by rcases initEffect_cases s with ⟨-, h⟩ | ⟨-, h⟩ <;> rw [h] <;> rfl
@[simp] theorem initEffect_resetIn : (initEffect s).resetIn = s.resetIn := by rcases initEffect_cases s with ⟨-, h⟩ | ⟨-, h⟩ <;> rw [h] <;> rfl
@[simp] theorem initEffect_index : (initEffect s).index = 0 := by
  rw [State.index, initEffect_bitCount]
  decide

@[simp] theorem resetEvent_h : (resetEvent s).h = initialValue := rfl
@[simp] theorem resetEvent_bitCount : (resetEvent s).bitCount = 0 := rfl
@[simp] theorem resetEvent_buf : (resetEvent s).buf = freeBlock (s.draws + 1) := rfl
@[simp] theorem resetEvent_dataIn : (resetEvent s).dataIn = 0 := rfl
@[simp] theorem resetEvent_spent : (resetEvent s).spent = false := rfl
@[simp] theorem resetEvent_err : (resetEvent s).err = false := rfl
@[simp] theorem resetEvent_ecause : (resetEvent s).ecause = 0 := rfl
@[simp] theorem resetEvent_ovf : (resetEvent s).ovf = false := rfl
@[simp] theorem resetEvent_busy : (resetEvent s).busy = false := rfl
@[simp] theorem resetEvent_pend : (resetEvent s).pend = false := rfl
@[simp] theorem resetEvent_t : (resetEvent s).t = Config.freeRound s.draws := rfl
@[simp] theorem resetEvent_w : (resetEvent s).w = freeSched s.draws := rfl
@[simp] theorem resetEvent_v : (resetEvent s).v = freeWork s.draws := rfl
@[simp] theorem resetEvent_queue : (resetEvent s).queue = abortHeld s := rfl
@[simp] theorem resetEvent_reads : (resetEvent s).reads = s.reads := rfl
@[simp] theorem resetEvent_marks : (resetEvent s).marks = s.marks := rfl
@[simp] theorem resetEvent_resetIn : (resetEvent s).resetIn = false := rfl
@[simp] theorem resetEvent_draws : (resetEvent s).draws = s.draws + 2 := rfl
@[simp] theorem resetEvent_index : (resetEvent s).index = 0 := by
  rw [State.index, resetEvent_bitCount]
  decide

@[simp] theorem forgetPipeline_h : (forgetPipeline s).h = s.h := rfl
@[simp] theorem forgetPipeline_bitCount : (forgetPipeline s).bitCount = s.bitCount := rfl
@[simp] theorem forgetPipeline_buf : (forgetPipeline s).buf = s.buf := rfl
@[simp] theorem forgetPipeline_dataIn : (forgetPipeline s).dataIn = s.dataIn := rfl
@[simp] theorem forgetPipeline_spent : (forgetPipeline s).spent = s.spent := rfl
@[simp] theorem forgetPipeline_err : (forgetPipeline s).err = s.err := rfl
@[simp] theorem forgetPipeline_ecause : (forgetPipeline s).ecause = s.ecause := rfl
@[simp] theorem forgetPipeline_ovf : (forgetPipeline s).ovf = s.ovf := rfl
@[simp] theorem forgetPipeline_busy : (forgetPipeline s).busy = s.busy := rfl
@[simp] theorem forgetPipeline_pend : (forgetPipeline s).pend = s.pend := rfl
@[simp] theorem forgetPipeline_t : (forgetPipeline s).t = Config.freeRound s.draws := rfl
@[simp] theorem forgetPipeline_w : (forgetPipeline s).w = freeSched s.draws := rfl
@[simp] theorem forgetPipeline_v : (forgetPipeline s).v = freeWork s.draws := rfl
@[simp] theorem forgetPipeline_queue : (forgetPipeline s).queue = s.queue := rfl
@[simp] theorem forgetPipeline_reads : (forgetPipeline s).reads = s.reads := rfl
@[simp] theorem forgetPipeline_marks : (forgetPipeline s).marks = s.marks := rfl
@[simp] theorem forgetPipeline_resetIn : (forgetPipeline s).resetIn = s.resetIn := rfl
@[simp] theorem forgetPipeline_draws : (forgetPipeline s).draws = s.draws + 1 := rfl

@[simp] theorem forgetBuffer_h : (forgetBuffer s).h = s.h := rfl
@[simp] theorem forgetBuffer_bitCount : (forgetBuffer s).bitCount = s.bitCount := rfl
@[simp] theorem forgetBuffer_buf : (forgetBuffer s).buf = freeBlock s.draws := rfl
@[simp] theorem forgetBuffer_dataIn : (forgetBuffer s).dataIn = s.dataIn := rfl
@[simp] theorem forgetBuffer_spent : (forgetBuffer s).spent = s.spent := rfl
@[simp] theorem forgetBuffer_err : (forgetBuffer s).err = s.err := rfl
@[simp] theorem forgetBuffer_ecause : (forgetBuffer s).ecause = s.ecause := rfl
@[simp] theorem forgetBuffer_ovf : (forgetBuffer s).ovf = s.ovf := rfl
@[simp] theorem forgetBuffer_busy : (forgetBuffer s).busy = s.busy := rfl
@[simp] theorem forgetBuffer_pend : (forgetBuffer s).pend = s.pend := rfl
@[simp] theorem forgetBuffer_t : (forgetBuffer s).t = s.t := rfl
@[simp] theorem forgetBuffer_w : (forgetBuffer s).w = s.w := rfl
@[simp] theorem forgetBuffer_v : (forgetBuffer s).v = s.v := rfl
@[simp] theorem forgetBuffer_queue : (forgetBuffer s).queue = s.queue := rfl
@[simp] theorem forgetBuffer_reads : (forgetBuffer s).reads = s.reads := rfl
@[simp] theorem forgetBuffer_marks : (forgetBuffer s).marks = s.marks := rfl
@[simp] theorem forgetBuffer_resetIn : (forgetBuffer s).resetIn = s.resetIn := rfl
@[simp] theorem forgetBuffer_draws : (forgetBuffer s).draws = s.draws + 1 := rfl

@[simp] theorem forgetTail_h : (forgetTail s).h = s.h := rfl
@[simp] theorem forgetTail_bitCount : (forgetTail s).bitCount = s.bitCount := rfl
@[simp] theorem forgetTail_buf : (forgetTail s).buf = if s.pend then s.buf else keepFirst s.index.toNat s.buf (freeBlock s.draws) := rfl
@[simp] theorem forgetTail_dataIn : (forgetTail s).dataIn = s.dataIn := rfl
@[simp] theorem forgetTail_spent : (forgetTail s).spent = s.spent := rfl
@[simp] theorem forgetTail_err : (forgetTail s).err = s.err := rfl
@[simp] theorem forgetTail_ecause : (forgetTail s).ecause = s.ecause := rfl
@[simp] theorem forgetTail_ovf : (forgetTail s).ovf = s.ovf := rfl
@[simp] theorem forgetTail_busy : (forgetTail s).busy = s.busy := rfl
@[simp] theorem forgetTail_pend : (forgetTail s).pend = s.pend := rfl
@[simp] theorem forgetTail_t : (forgetTail s).t = s.t := rfl
@[simp] theorem forgetTail_w : (forgetTail s).w = s.w := rfl
@[simp] theorem forgetTail_v : (forgetTail s).v = s.v := rfl
@[simp] theorem forgetTail_queue : (forgetTail s).queue = s.queue := rfl
@[simp] theorem forgetTail_reads : (forgetTail s).reads = s.reads := rfl
@[simp] theorem forgetTail_marks : (forgetTail s).marks = s.marks := rfl
@[simp] theorem forgetTail_resetIn : (forgetTail s).resetIn = s.resetIn := rfl
@[simp] theorem forgetTail_draws : (forgetTail s).draws = if s.pend then s.draws else s.draws + 1 := rfl

@[simp] theorem roundStep_h (ht : s.t.val < 64) : (roundStep s ht).h = s.h := rfl
@[simp] theorem roundStep_bitCount (ht : s.t.val < 64) : (roundStep s ht).bitCount = s.bitCount := rfl
@[simp] theorem roundStep_buf (ht : s.t.val < 64) : (roundStep s ht).buf = s.buf := rfl
@[simp] theorem roundStep_dataIn (ht : s.t.val < 64) : (roundStep s ht).dataIn = s.dataIn := rfl
@[simp] theorem roundStep_spent (ht : s.t.val < 64) : (roundStep s ht).spent = s.spent := rfl
@[simp] theorem roundStep_err (ht : s.t.val < 64) : (roundStep s ht).err = s.err := rfl
@[simp] theorem roundStep_ecause (ht : s.t.val < 64) : (roundStep s ht).ecause = s.ecause := rfl
@[simp] theorem roundStep_ovf (ht : s.t.val < 64) : (roundStep s ht).ovf = s.ovf := rfl
@[simp] theorem roundStep_busy (ht : s.t.val < 64) : (roundStep s ht).busy = s.busy := rfl
@[simp] theorem roundStep_pend (ht : s.t.val < 64) : (roundStep s ht).pend = s.pend := rfl
@[simp] theorem roundStep_t (ht : s.t.val < 64) : (roundStep s ht).t = ⟨s.t.val + 1, by omega⟩ := rfl
@[simp] theorem roundStep_w (ht : s.t.val < 64) : (roundStep s ht).w = extendSchedule s.w s.t.val := rfl
@[simp] theorem roundStep_v (ht : s.t.val < 64) : (roundStep s ht).v = roundAt (extendSchedule s.w s.t.val) s.t.val s.v := rfl
@[simp] theorem roundStep_queue (ht : s.t.val < 64) : (roundStep s ht).queue = s.queue := rfl
@[simp] theorem roundStep_reads (ht : s.t.val < 64) : (roundStep s ht).reads = s.reads := rfl
@[simp] theorem roundStep_marks (ht : s.t.val < 64) : (roundStep s ht).marks = s.marks := rfl
@[simp] theorem roundStep_resetIn (ht : s.t.val < 64) : (roundStep s ht).resetIn = s.resetIn := rfl
@[simp] theorem roundStep_draws (ht : s.t.val < 64) : (roundStep s ht).draws = s.draws := rfl

/-- INDEX depends on `bit_count` alone. -/
theorem index_congr {s s' : State} (h : s.bitCount = s'.bitCount) : s.index = s'.index := by
  simp only [State.index, h]

end Sys2Proof.Machine
end

