-- ==== Sys2Proof/Laws/Ops.lean ====
section
/-! SUPPORT. One law per shared operation, saying once everything it can do. Callers cite these and do not unfold the operations. -/

namespace Sys2Proof.Machine

/-! ### Acceptance -/

theorem accept_idle {f : State → State} {s : State} (h : s.busy = false) : accept f s = .next (f s) := by
  simp [accept, h]

theorem accept_busy {f : State → State} {s : State} (h : s.busy = true) : accept f s = .next s := by
  simp [accept, h]

/-- Acceptance never stops: it has no effect on a busy engine and the command's effect on an idle one. -/
theorem accept_cases {f : State → State} {s t : State} (h : accept f s = .next t) :
    (s.busy = true ∧ t = s) ∨ (s.busy = false ∧ t = f s) := by
  cases hb : s.busy <;> simp_all [accept]

/-! ### The counter -/

theorem addByte_eq (bc : BitVec 64) : addByte bc = bc + 8 := by
  apply BitVec.eq_of_toNat_eq
  simp only [addByte, bitCountSum, BitVec.extractLsb'_toNat, BitVec.toNat_add, BitVec.truncate_eq_setWidth, BitVec.toNat_setWidth, BitVec.ofNat_eq_ofNat,
    BitVec.toNat_ofNat, Nat.shiftRight_zero]
  omega

/-- The carry of R133: `bit_count` plus 8 passes 2^64. -/
theorem addByteCarry_eq (bc : BitVec 64) : addByteCarry bc = decide (2 ^ 64 ≤ bc.toNat + 8) := by
  have hlt := bc.isLt
  simp only [addByteCarry, bitCountSum, BitVec.getLsbD, BitVec.toNat_add, BitVec.truncate_eq_setWidth, BitVec.toNat_setWidth, BitVec.ofNat_eq_ofNat,
    BitVec.toNat_ofNat, Nat.testBit_eq_decide_div_mod_eq]
  congr 1
  exact propext ⟨fun h => by omega, fun h => by omega⟩

theorem indexOf_toNat (bc : BitVec 64) : (indexOf bc).toNat = bc.toNat / 8 % 64 := by
  simp [indexOf, Nat.shiftRight_eq_div_pow]

theorem index_toNat (s : State) : s.index.toNat = s.bitCount.toNat / 8 % 64 := indexOf_toNat _

/-- Absorbing a byte moves INDEX on by one, from 63 back to 0 (R34). -/
theorem indexOf_addByte (bc : BitVec 64) : (indexOf (addByte bc)).toNat = ((indexOf bc).toNat + 1) % 64 := by
  have hlt := bc.isLt
  simp only [indexOf_toNat, addByte_eq, BitVec.toNat_add, BitVec.ofNat_eq_ofNat, BitVec.toNat_ofNat]
  omega

/-! ### Absorbing bytes -/

theorem updateBytes_length (nb : BitVec 3) (d : Word) (h : nb.toNat ≤ 4) : (updateBytes nb d).length = nb.toNat := by
  simp [updateBytes, be32Bytes, h]

theorem finalBytes_length (l : BitVec 64) : (finalBytes l).length = padLen (indexOf l).toNat + 8 := by
  have := (indexOf l).isLt
  simp only [finalBytes, be64Bytes, be32Bytes, List.length_append, List.length_cons, List.length_nil, List.length_replicate, padLen]
  split <;> omega

/-- The three cases of AbsorbByte (R133). -/
theorem absorbByte_cases (b : Byte) (s : State) :
    (s.index ≠ 63 ∧ absorbByte b s = storeByte b s)
    ∨ (s.index = 63 ∧ s.busy = false ∧ absorbByte b s = issue (storeByte b s))
    ∨ (s.index = 63 ∧ s.busy = true ∧ absorbByte b s = { storeByte b s with pend := true }) := by
  by_cases h : s.index = 63
  · cases hb : s.busy <;> simp [absorbByte, completeBlock, h, hb]
  · exact .inl ⟨h, if_neg h⟩

theorem absorbBytes_append (xs ys : List Byte) (s : State) :
    absorbBytes (xs ++ ys) s = absorbBytes ys (absorbBytes xs s) := by
  induction xs generalizing s with
  | nil => rfl
  | cons b bs ih => exact ih _

/-- What absorbing a byte never writes. -/
structure AbsorbFrame (s t : State) : Prop where
  h : t.h = s.h
  dataIn : t.dataIn = s.dataIn
  spent : t.spent = s.spent
  err : t.err = s.err
  ecause : t.ecause = s.ecause
  queue : t.queue = s.queue
  reads : t.reads = s.reads
  resetIn : t.resetIn = s.resetIn

theorem absorbByte_frame (b : Byte) (s : State) : AbsorbFrame s (absorbByte b s) := by
  obtain ⟨-, h⟩ | ⟨-, -, h⟩ | ⟨-, -, h⟩ := absorbByte_cases b s <;> rw [h] <;> constructor <;> rfl

theorem absorbBytes_frame (bs : List Byte) (s : State) : AbsorbFrame s (absorbBytes bs s) := by
  induction bs generalizing s with
  | nil => exact ⟨rfl, rfl, rfl, rfl, rfl, rfl, rfl, rfl⟩
  | cons b bs ih =>
    have h1 := absorbByte_frame b s
    have h2 := ih (absorbByte b s)
    exact ⟨h2.h.trans h1.h, h2.dataIn.trans h1.dataIn, h2.spent.trans h1.spent, h2.err.trans h1.err, h2.ecause.trans h1.ecause,
      h2.queue.trans h1.queue, h2.reads.trans h1.reads, h2.resetIn.trans h1.resetIn⟩

theorem absorbByte_bitCount (b : Byte) (s : State) : (absorbByte b s).bitCount = s.bitCount + 8 := by
  obtain ⟨-, h⟩ | ⟨-, -, h⟩ | ⟨-, -, h⟩ := absorbByte_cases b s <;> rw [h] <;> exact addByte_eq _

theorem absorbBytes_bitCount (bs : List Byte) (s : State) :
    (absorbBytes bs s).bitCount = s.bitCount + BitVec.ofNat 64 (8 * bs.length) := by
  induction bs generalizing s with
  | nil => simp [absorbBytes]
  | cons b bs ih =>
    rw [absorbBytes, ih, absorbByte_bitCount]
    apply BitVec.eq_of_toNat_eq
    simp only [BitVec.toNat_add, BitVec.ofNat_eq_ofNat, BitVec.toNat_ofNat, List.length_cons]
    omega

/-! ### What a command leaves in `Buf` -/

theorem keepFirst_get (n : Nat) (buf free : Block) (j : Nat) (hj : j < 64) :
    (keepFirst n buf free)[j] = if j < n then buf[j] else free[j] := by
  simp [keepFirst]

/-- The meaningful bytes of `Buf` (R35) outlast `forgetTail`. -/
theorem forgetTail_get (s : State) (j : Nat) (hj : j < 64) (h : j < s.index.toNat ∨ s.pend = true) : (forgetTail s).buf[j] = s.buf[j] := by
  cases hp : s.pend
  · have hlt : j < s.index.toNat := by simpa [hp] using h
    simp [hp, keepFirst_get, hlt]
  · simp [hp]

/-- What absorbing can be: nothing at all, or the bytes and then the unspecified tail. -/
theorem absorb_cases (bs : List Byte) (s : State) :
    (bs = [] ∧ absorb bs s = s) ∨ (bs ≠ [] ∧ absorb bs s = forgetTail (absorbBytes bs s)) := by
  by_cases h : bs = [] <;> simp [absorb, h]

@[simp] theorem absorb_h (bs : List Byte) (s : State) : (absorb bs s).h = (absorbBytes bs s).h := by
  rcases absorb_cases bs s with ⟨rfl, h⟩ | ⟨-, h⟩ <;> rw [h] <;> rfl
@[simp] theorem absorb_bitCount (bs : List Byte) (s : State) : (absorb bs s).bitCount = (absorbBytes bs s).bitCount := by
  rcases absorb_cases bs s with ⟨rfl, h⟩ | ⟨-, h⟩ <;> rw [h] <;> rfl
@[simp] theorem absorb_dataIn (bs : List Byte) (s : State) : (absorb bs s).dataIn = (absorbBytes bs s).dataIn := by
  rcases absorb_cases bs s with ⟨rfl, h⟩ | ⟨-, h⟩ <;> rw [h] <;> rfl
@[simp] theorem absorb_spent (bs : List Byte) (s : State) : (absorb bs s).spent = (absorbBytes bs s).spent := by
  rcases absorb_cases bs s with ⟨rfl, h⟩ | ⟨-, h⟩ <;> rw [h] <;> rfl
@[simp] theorem absorb_err (bs : List Byte) (s : State) : (absorb bs s).err = (absorbBytes bs s).err := by
  rcases absorb_cases bs s with ⟨rfl, h⟩ | ⟨-, h⟩ <;> rw [h] <;> rfl
@[simp] theorem absorb_ecause (bs : List Byte) (s : State) : (absorb bs s).ecause = (absorbBytes bs s).ecause := by
  rcases absorb_cases bs s with ⟨rfl, h⟩ | ⟨-, h⟩ <;> rw [h] <;> rfl
@[simp] theorem absorb_ovf (bs : List Byte) (s : State) : (absorb bs s).ovf = (absorbBytes bs s).ovf := by
  rcases absorb_cases bs s with ⟨rfl, h⟩ | ⟨-, h⟩ <;> rw [h] <;> rfl
@[simp] theorem absorb_busy (bs : List Byte) (s : State) : (absorb bs s).busy = (absorbBytes bs s).busy := by
  rcases absorb_cases bs s with ⟨rfl, h⟩ | ⟨-, h⟩ <;> rw [h] <;> rfl
@[simp] theorem absorb_pend (bs : List Byte) (s : State) : (absorb bs s).pend = (absorbBytes bs s).pend := by
  rcases absorb_cases bs s with ⟨rfl, h⟩ | ⟨-, h⟩ <;> rw [h] <;> rfl
@[simp] theorem absorb_t (bs : List Byte) (s : State) : (absorb bs s).t = (absorbBytes bs s).t := by
  rcases absorb_cases bs s with ⟨rfl, h⟩ | ⟨-, h⟩ <;> rw [h] <;> rfl
@[simp] theorem absorb_w (bs : List Byte) (s : State) : (absorb bs s).w = (absorbBytes bs s).w := by
  rcases absorb_cases bs s with ⟨rfl, h⟩ | ⟨-, h⟩ <;> rw [h] <;> rfl
@[simp] theorem absorb_v (bs : List Byte) (s : State) : (absorb bs s).v = (absorbBytes bs s).v := by
  rcases absorb_cases bs s with ⟨rfl, h⟩ | ⟨-, h⟩ <;> rw [h] <;> rfl
@[simp] theorem absorb_queue (bs : List Byte) (s : State) : (absorb bs s).queue = (absorbBytes bs s).queue := by
  rcases absorb_cases bs s with ⟨rfl, h⟩ | ⟨-, h⟩ <;> rw [h] <;> rfl
@[simp] theorem absorb_reads (bs : List Byte) (s : State) : (absorb bs s).reads = (absorbBytes bs s).reads := by
  rcases absorb_cases bs s with ⟨rfl, h⟩ | ⟨-, h⟩ <;> rw [h] <;> rfl
@[simp] theorem absorb_marks (bs : List Byte) (s : State) : (absorb bs s).marks = (absorbBytes bs s).marks := by
  rcases absorb_cases bs s with ⟨rfl, h⟩ | ⟨-, h⟩ <;> rw [h] <;> rfl
@[simp] theorem absorb_resetIn (bs : List Byte) (s : State) : (absorb bs s).resetIn = (absorbBytes bs s).resetIn := by
  rcases absorb_cases bs s with ⟨rfl, h⟩ | ⟨-, h⟩ <;> rw [h] <;> rfl

/-- The meaningful bytes of `Buf` after a command are those the bytes it absorbed were stored to, or that were there before. -/
theorem absorb_get (bs : List Byte) (s : State) (j : Nat) (hj : j < 64) (h : j < (absorbBytes bs s).index.toNat ∨ (absorbBytes bs s).pend = true) :
    (absorb bs s).buf[j] = (absorbBytes bs s).buf[j] := by
  rcases absorb_cases bs s with ⟨rfl, he⟩ | ⟨-, he⟩ <;> rw [he]
  · rfl
  · exact forgetTail_get _ j hj h

/-- Of an engine, absorbing changes only the buffer, the counter, OVF and the pipeline. -/
theorem absorb_frame (bs : List Byte) (s : State) : AbsorbFrame s (absorb bs s) := by
  have h := absorbBytes_frame bs s
  constructor <;> simp [h.h, h.dataIn, h.spent, h.err, h.ecause, h.queue, h.reads, h.resetIn]

/-! ### The pipeline -/

/-- The four things a pipeline step can be (R190 to R193). -/
theorem pipelineStep_cases (s : State) :
    (s.busy = false ∧ pipelineStep s = s)
    ∨ (s.busy = true ∧ ∃ h : s.t.val < 64, pipelineStep s = roundStep s h)
    ∨ (s.busy = true ∧ s.t.val = 64 ∧ s.pend = true
        ∧ pipelineStep s = forgetTail (issue { s with h := finalAdd s.h s.v, pend := false }))
    ∨ (s.busy = true ∧ s.t.val = 64 ∧ s.pend = false
        ∧ pipelineStep s = forgetPipeline { s with h := finalAdd s.h s.v, busy := false }) := by
  cases hb : s.busy
  · simp [pipelineStep, hb]
  · by_cases ht : s.t.val < 64
    · exact .inr (.inl ⟨rfl, ht, by simp [pipelineStep, hb, ht]⟩)
    · have h64 : s.t.val = 64 := by have := s.t.isLt; omega
      cases hp : s.pend <;> simp [pipelineStep, addStep, hb, hp, h64]

/-- The bytes of `Buf` that are meaningful after a pipeline step were there before it (R198, R35). -/
theorem pipelineStep_get (s : State) (j : Nat) (hj : j < 64) (h : j < (pipelineStep s).index.toNat ∨ (pipelineStep s).pend = true) :
    (pipelineStep s).buf[j] = s.buf[j] := by
  rcases pipelineStep_cases s with ⟨-, he⟩ | ⟨-, ht, he⟩ | ⟨-, -, -, he⟩ | ⟨-, -, -, he⟩ <;> rewrite [he] at h ⊢
  · rfl
  · simp only [roundStep_buf]
  · exact forgetTail_get _ j hj h
  · simp only [forgetPipeline_buf]

theorem pipelineSteps_add (m n : Nat) (s : State) : pipelineSteps (m + n) s = pipelineSteps n (pipelineSteps m s) := by
  induction m generalizing s with
  | zero => simp [pipelineSteps]
  | succ m ih => rw [Nat.succ_add, pipelineSteps, ih, pipelineSteps]

theorem pipelineSteps_succ (n : Nat) (s : State) : pipelineSteps (n + 1) s = pipelineStep (pipelineSteps n s) :=
  pipelineSteps_add n 1 s

end Sys2Proof.Machine
end

