-- ==== Sys2Proof/Laws/Absorb.lean ====
section
/-! SUPPORT. Closed forms for absorbing a run of bytes (spec/40_commands.md R133): within a block, and up to the end of one. -/

namespace Sys2Proof.Machine

/-- `buf` with the bytes `bs` stored from place `i` on. -/
def overlay (buf : Block) (i : Nat) (bs : List Byte) : Block :=
  Vector.ofFn fun j : Fin 64 => if i ≤ j.val ∧ j.val < i + bs.length then bs.getD (j.val - i) 0 else buf[j]

theorem overlay_get (buf : Block) (i : Nat) (bs : List Byte) (j : Nat) (hj : j < 64) :
    (overlay buf i bs)[j] = if i ≤ j ∧ j < i + bs.length then bs.getD (j - i) 0 else buf[j] := by
  simp [overlay]

theorem overlay_nil (buf : Block) (i : Nat) : overlay buf i [] = buf := by
  apply Vector.ext
  intro j hj
  rw [overlay_get _ _ _ _ hj, if_neg (by simp only [List.length_nil]; omega)]

/-- Storing one byte and then the rest is storing them all. -/
theorem overlay_cons (buf : Block) (i : Nat) (hi : i < 64) (b : Byte) (bs : List Byte) :
    overlay (buf.set i b hi) (i + 1) bs = overlay buf i (b :: bs) := by
  apply Vector.ext
  intro j hj
  simp only [overlay_get _ _ _ _ hj, List.length_cons, Vector.getElem_set]
  by_cases h0 : i = j
  · subst h0
    rw [if_neg (by omega), if_pos (by omega), if_pos (by omega)]
    simp
  · by_cases h1 : i + 1 ≤ j ∧ j < i + 1 + bs.length
    · rw [if_pos h1, if_pos (by omega), show j - i = (j - (i + 1)) + 1 by omega]
      simp
    · rw [if_neg h1, if_neg h0, if_neg (by omega)]

/-- Storing past the end of a shorter run. -/
theorem overlay_append (buf : Block) (i : Nat) (xs ys : List Byte) :
    overlay (overlay buf i xs) (i + xs.length) ys = overlay buf i (xs ++ ys) := by
  apply Vector.ext
  intro j hj
  simp only [overlay_get _ _ _ _ hj, List.length_append]
  by_cases h1 : i + xs.length ≤ j ∧ j < i + xs.length + ys.length
  · rw [if_pos h1, if_pos (by omega), List.getD_append_right _ _ _ _ (by omega), show j - (i + xs.length) = j - i - xs.length by omega]
  · rw [if_neg h1]
    by_cases h2 : i ≤ j ∧ j < i + xs.length
    · rw [if_pos h2, if_pos (by omega), List.getD_append _ _ _ _ (by omega)]
    · rw [if_neg h2, if_neg (by omega)]

theorem index_ne_last {s : State} (h : s.index.toNat < 63) : s.index ≠ 63 := by
  intro h'
  rw [h'] at h
  exact absurd h (by decide)

theorem index_eq_last {s : State} (h : s.index.toNat = 63) : s.index = 63 := BitVec.eq_of_toNat_eq h

/-- A carry needs INDEX = 63: nothing wraps inside a block. -/
theorem no_carry_within {s : State} (h : s.index.toNat < 63) : addByteCarry s.bitCount = false := by
  have hlt := s.bitCount.isLt
  rw [index_toNat] at h
  rw [addByteCarry_eq]
  exact decide_eq_false (by omega)

theorem storeByte_index (b : Byte) (s : State) : (storeByte b s).index.toNat = (s.index.toNat + 1) % 64 :=
  indexOf_addByte _

/-- A byte that does not complete a block changes `Buf` at INDEX and `bit_count`, and nothing else. -/
theorem absorbByte_within (b : Byte) {s : State} (h : s.index.toNat < 63) :
    absorbByte b s = { s with buf := s.buf.set s.index.toNat b s.index.isLt, bitCount := s.bitCount + 8 } := by
  rw [absorbByte, if_neg (index_ne_last h), storeByte, no_carry_within h, addByte_eq]
  simp

/-- A run of bytes that completes no block. -/
theorem absorbBytes_within (bs : List Byte) (s : State) (h : s.index.toNat + bs.length < 64) :
    absorbBytes bs s =
      { s with buf := overlay s.buf s.index.toNat bs, bitCount := s.bitCount + BitVec.ofNat 64 (8 * bs.length) } := by
  induction bs generalizing s with
  | nil => simp [absorbBytes, overlay_nil]
  | cons b bs ih =>
    rw [List.length_cons] at h
    have h63 : s.index.toNat < 63 := by omega
    have hi : ({ s with buf := s.buf.set s.index.toNat b s.index.isLt, bitCount := s.bitCount + 8 } : State).index.toNat
        = s.index.toNat + 1 := by
      have := storeByte_index b s
      rw [Nat.mod_eq_of_lt (by omega), index_toNat, storeByte_bitCount, addByte_eq] at this
      rw [index_toNat]
      exact this
    rw [absorbBytes, absorbByte_within b h63, ih _ (by omega), hi]
    simp only [overlay_cons]
    congr 1
    apply BitVec.eq_of_toNat_eq
    simp only [BitVec.toNat_add, BitVec.ofNat_eq_ofNat, BitVec.toNat_ofNat, List.length_cons]
    omega

/-- The byte that ends a block, after a run that completes none: the whole run is stored, the counter may carry, and the block is complete. -/
theorem absorbBytes_to_end (bs : List Byte) (b : Byte) (s : State) (h : s.index.toNat + bs.length = 63) :
    absorbBytes (bs ++ [b]) s =
      completeBlock { s with
        buf := overlay s.buf s.index.toNat (bs ++ [b])
        bitCount := s.bitCount + BitVec.ofNat 64 (8 * (bs.length + 1))
        ovf := s.ovf || decide (2 ^ 64 ≤ s.bitCount.toNat + 8 * (bs.length + 1))
        marks := s.marks ++ (if 2 ^ 64 ≤ s.bitCount.toNat + 8 * (bs.length + 1) then [.overflow] else []) } := by
  have hlt := s.bitCount.isLt
  have hidx := index_toNat s
  have hbc : (s.bitCount + BitVec.ofNat 64 (8 * bs.length)).toNat = s.bitCount.toNat + 8 * bs.length := by
    rw [BitVec.toNat_add, BitVec.toNat_ofNat]
    omega
  have hi : ({ s with buf := overlay s.buf s.index.toNat bs, bitCount := s.bitCount + BitVec.ofNat 64 (8 * bs.length) } : State).index.toNat
      = 63 := by
    rw [index_toNat]
    show (s.bitCount + BitVec.ofNat 64 (8 * bs.length)).toNat / 8 % 64 = 63
    rw [hbc]
    omega
  rw [absorbBytes_append, absorbBytes_within bs s (by omega)]
  simp only [absorbBytes, absorbByte, index_eq_last hi, if_true]
  congr 1
  have hbuf : ∀ (k : Nat) (hk : k < 64), k = s.index.toNat + bs.length →
      (overlay s.buf s.index.toNat bs).set k b hk = overlay s.buf s.index.toNat (bs ++ [b]) := by
    intro k hk hke
    rw [← overlay_append, ← hke]
    rw [← overlay_nil ((overlay s.buf s.index.toNat bs).set k b hk) (k + 1), overlay_cons]
  have hadd : addByte (s.bitCount + BitVec.ofNat 64 (8 * bs.length)) = s.bitCount + BitVec.ofNat 64 (8 * (bs.length + 1)) := by
    rw [addByte_eq]
    apply BitVec.eq_of_toNat_eq
    simp only [BitVec.toNat_add, BitVec.ofNat_eq_ofNat, BitVec.toNat_ofNat]
    omega
  have hcarry : addByteCarry (s.bitCount + BitVec.ofNat 64 (8 * bs.length))
      = decide (2 ^ 64 ≤ s.bitCount.toNat + 8 * (bs.length + 1)) := by
    rw [addByteCarry_eq, hbc, show s.bitCount.toNat + 8 * bs.length + 8 = s.bitCount.toNat + 8 * (bs.length + 1) by omega]
  simp only [storeByte, hadd, hcarry, hbuf _ _ (hi.trans h.symm)]
  simp only [decide_eq_true_eq]
  congr 1
  split <;> simp

end Sys2Proof.Machine
end

