-- ==== Sys2Proof/Laws/PerInstr.lean ====
section
/-! SUPPORT. Per instruction: the word of a well-formed command matches the command's own row of the opcode table (spec/30_encoding.md R120). -/

namespace Sys2Proof.Laws.TableRow

/-- The family's statement. -/
def Statement (i : Instr) : Prop := i.wf = true → encode i &&& i.rowMask = i.rowMatch

theorem nop : Statement .nop := by intro _; decide

theorem init : Statement .init := by intro _; decide

theorem update (nb : BitVec 3) : Statement (.update nb) := by revert nb; unfold Statement; decide

theorem final : Statement .final := by intro _; decide

theorem reservedOp47 (low : BitVec 2) (high : BitVec 28) : Statement (.reservedOp47 low high) := by
  intro _
  ext i hi
  simp only [encode, Instr.rowMask, Instr.rowMatch, BitVec.getElem_and, BitVec.getElem_or]
  interval_cases i <;> simp

theorem reservedOp8F (low : BitVec 3) (high : BitVec 28) : Statement (.reservedOp8F low high) := by
  intro _
  ext i hi
  simp only [encode, Instr.rowMask, Instr.rowMatch, BitVec.getElem_and, BitVec.getElem_or]
  interval_cases i <;> simp

end Sys2Proof.Laws.TableRow
end

