-- ==== Sys2Proof/Laws/Step.lean ====
section
/-! SUPPORT. What an access, a command and a step can do, said once: every claim about all steps goes by these cases. -/

namespace Sys2Proof.Machine

/-- What accepting a command can do: the cases of the commands' effects (spec/40_commands.md). -/
theorem exec_cases {i : Instr} {s t : State} (h : exec i s = .next t) :
    (s.busy = true ∧ t = s)
    ∨ (s.busy = false ∧
        ((i = .nop ∧ t = s)
        ∨ (i = .init ∧ t = initEffect s)
        ∨ (∃ nb, i = .update nb ∧ t = updateEffect nb s)
        ∨ (i = .final ∧ t = finalEffect s)
        ∨ (((∃ low high, i = .reservedOp47 low high) ∨ ∃ low high, i = .reservedOp8F low high) ∧ t = recordError .rsvOp s))) := by
  cases i <;> rcases accept_cases h with ⟨hb, rfl⟩ | ⟨hb, rfl⟩ <;> simp [hb]

/-- A command always completes (spec/60_exceptions.md R210). -/
theorem exec_next (i : Instr) (s : State) : ∃ t, exec i s = .next t := by
  cases i <;> exact ⟨_, rfl⟩

/-- What UPDATE's effect can be (R134). -/
theorem updateEffect_cases (nb : BitVec 3) (s : State) :
    (4 < nb.toNat ∧ updateEffect nb s = recordError .badNb s)
    ∨ (nb.toNat ≤ 4 ∧ s.spent = true ∧ updateEffect nb s = recordError .updSpent s)
    ∨ (nb.toNat ≤ 4 ∧ s.spent = false ∧ updateEffect nb s = absorb (updateBytes nb s.dataIn) s) := by
  by_cases hn : nb.toNat ≤ 4
  · have hn' : ¬ 4 < nb.toNat := by omega
    cases hs : s.spent <;> simp [updateEffect, Config.maxNb, hn', hs, hn]
  · simp [updateEffect, Config.maxNb, show 4 < nb.toNat by omega]

/-- What FINAL's effect can be (R138). -/
theorem finalEffect_cases (s : State) :
    (s.spent = true ∧ finalEffect s = recordError .finSpent s)
    ∨ (s.spent = false ∧ finalEffect s = absorb (finalBytes s.bitCount) { s with spent := true }) := by
  cases hs : s.spent <;> simp [finalEffect, hs]

theorem acceptWord_ok {cw : Word} {i : Instr} (h : decode cw = .ok i) (s : State) : acceptWord cw s = exec i s := by
  simp [acceptWord, h]

theorem acceptWord_error {cw : Word} {e : DecodeError} (h : decode cw = .error e) (s : State) :
    acceptWord cw s = accept (recordError (decodeCause e)) s := by
  simp [acceptWord, h]

/-- What an access can do (spec/20_memory.md R72 to R79). -/
theorem perform_cases {a : Access} {s t : State} (h : perform a s = .next t) :
    (∃ off width r, a = .read off width ∧ readTarget off width = some r ∧ t = returnWord (readReg r s) s)
    ∨ (∃ off width, a = .read off width ∧ readTarget off width = none ∧ t = returnWord 0 (recordError .badAcc s))
    ∨ (∃ off width cw, a = .write off width cw ∧ writeTarget off width = some .cmd ∧ acceptWord cw s = .next t)
    ∨ (∃ off width x, a = .write off width x ∧ writeTarget off width = some .dataIn ∧ t = { s with dataIn := x })
    ∨ (∃ off width x, a = .write off width x ∧ writeTarget off width ≠ some .cmd ∧ writeTarget off width ≠ some .dataIn
        ∧ t = recordError .badAcc s) := by
  cases a with
  | read off width =>
    cases hr : readTarget off width with
    | none => exact .inr (.inl ⟨off, width, rfl, hr, by simpa [perform, hr] using h.symm⟩)
    | some r => exact .inl ⟨off, width, r, rfl, hr, by simpa [perform, hr] using h.symm⟩
  | write off width x =>
    refine .inr (.inr ?_)
    rcases hw : writeTarget off width with _ | r
    · exact .inr (.inr ⟨off, width, x, rfl, by simp [hw], by simp [hw], by simpa [perform, hw] using h.symm⟩)
    · cases r with
      | cmd => exact .inl ⟨off, width, x, rfl, hw, by simpa [perform, hw] using h⟩
      | dataIn => exact .inr (.inl ⟨off, width, x, rfl, hw, by simpa [perform, hw] using h.symm⟩)
      | _ => exact .inr (.inr ⟨off, width, x, rfl, by simp [hw], by simp [hw], by simpa [perform, hw] using h.symm⟩)

theorem acceptWord_next (cw : Word) (s : State) : ∃ t, acceptWord cw s = .next t := by
  cases h : decode cw with
  | ok i => rw [acceptWord_ok h]; exact exec_next i s
  | error e => rw [acceptWord_error h]; exact ⟨_, rfl⟩

/-- An access always completes (R210). -/
theorem perform_next (a : Access) (s : State) : ∃ t, perform a s = .next t := by
  cases a with
  | read off width => cases h : readTarget off width <;> simp [perform, h]
  | write off width x =>
    rcases h : writeTarget off width with _ | r
    · simp [perform, h]
    · cases r <;> simp [perform, h]
      exact acceptWord_next x s

/-- What a step can be (spec/00_scope.md R13; spec/20_memory.md R84; spec/70_reset_and_hazards.md R240). -/
theorem step_cases {s t : State} (h : step s = .next t) :
    (s.resetIn = true ∧ t = resetEvent s)
    ∨ (s.resetIn = false ∧ s.queue = [] ∧ t = pipelineStep s)
    ∨ (s.resetIn = false ∧ s.busy = false ∧ ∃ a rest, s.queue = a :: rest ∧ perform a { s with queue := rest } = .next t)
    ∨ (s.resetIn = false ∧ s.busy = true ∧ (∃ a rest, s.queue = a :: rest ∧ a.heldWhileBusy = true) ∧ t = pipelineStep s)
    ∨ (s.resetIn = false ∧ s.busy = true ∧ (∃ a rest, s.queue = a :: rest ∧ a.heldWhileBusy = false) ∧ t = pipelineStep (drawn s))
    ∨ (s.resetIn = false ∧ s.busy = true ∧ ∃ a rest, s.queue = a :: rest ∧ a.heldWhileBusy = false
        ∧ perform a { drawn s with queue := rest } = .next t) := by
  unfold step advance at h
  cases hr : s.resetIn
  · simp only [hr, Bool.false_eq_true, if_false] at h
    rcases hq : s.queue with _ | ⟨a, rest⟩
    · exact .inr (.inl ⟨rfl, rfl, by simpa [hq] using h.symm⟩)
    · cases hb : s.busy
      · exact .inr (.inr (.inl ⟨rfl, rfl, a, rest, rfl, by simpa [hq, hb] using h⟩))
      · cases hh : a.heldWhileBusy
        · cases hc : Config.turn s.draws
          · exact .inr (.inr (.inr (.inr (.inr ⟨rfl, rfl, a, rest, rfl, hh, by simpa [hq, hb, contend, hh, hc] using h⟩))))
          · exact .inr (.inr (.inr (.inr (.inl ⟨rfl, rfl, ⟨a, rest, rfl, hh⟩, by simpa [hq, hb, contend, hh, hc] using h.symm⟩))))
        · exact .inr (.inr (.inr (.inl ⟨rfl, rfl, ⟨a, rest, rfl, hh⟩, by simpa [hq, hb, contend, hh] using h.symm⟩)))
  · exact .inl ⟨rfl, by simpa [hr] using h.symm⟩

theorem writeTarget_cmd {off : Fin Config.windowBytes} {width : Nat} (h : writeTarget off width = some .cmd) : off = 0 ∧ width = 4 := by
  by_cases hw : width = 4
  · subst hw
    revert off
    decide
  · simp [writeTarget, readTarget, hw] at h

theorem writeTarget_dataIn {off : Fin Config.windowBytes} {width : Nat} (h : writeTarget off width = some .dataIn) : off = 8 ∧ width = 4 := by
  by_cases hw : width = 4
  · subst hw
    revert off
    decide
  · simp [writeTarget, readTarget, hw] at h

/-- What an idle engine does with a command word, whatever the word is (R115). -/
theorem acceptWord_cases {cw : Word} {s t : State} (hb : s.busy = false) (h : acceptWord cw s = .next t) :
    (∃ c, t = recordError c s)
    ∨ t = s
    ∨ (decode cw = .ok .init ∧ t = initEffect s)
    ∨ (∃ nb : BitVec 3, decode cw = .ok (.update nb) ∧ nb.toNat ≤ 4 ∧ s.spent = false ∧ t = absorb (updateBytes nb s.dataIn) s)
    ∨ (decode cw = .ok .final ∧ s.spent = false ∧ t = absorb (finalBytes s.bitCount) { s with spent := true }) := by
  cases hd : decode cw with
  | error e =>
    rw [acceptWord_error hd, accept_idle hb] at h
    exact .inl ⟨_, by simpa using h.symm⟩
  | ok i =>
    rw [acceptWord_ok hd] at h
    rcases exec_cases h with ⟨h', _⟩ | ⟨_, ⟨rfl, rfl⟩ | ⟨rfl, rfl⟩ | ⟨nb, rfl, rfl⟩ | ⟨rfl, rfl⟩ | ⟨_, rfl⟩⟩
    · simp [hb] at h'
    · exact .inr (.inl rfl)
    · exact .inr (.inr (.inl ⟨rfl, rfl⟩))
    · rcases updateEffect_cases nb s with ⟨_, h⟩ | ⟨_, _, h⟩ | ⟨h1, h2, h⟩
      · exact .inl ⟨_, h⟩
      · exact .inl ⟨_, h⟩
      · exact .inr (.inr (.inr (.inl ⟨nb, rfl, h1, h2, h⟩)))
    · rcases finalEffect_cases s with ⟨_, h⟩ | ⟨h2, h⟩
      · exact .inl ⟨_, h⟩
      · exact .inr (.inr (.inr (.inr ⟨rfl, h2, h⟩)))
    · exact .inl ⟨_, rfl⟩

/-- The host is about to complete the CMD write of a word that decodes to `i`, on an engine that accepts it. -/
abbrev accepting (i : Instr) (s : State) : Prop :=
  s.resetIn = false ∧ s.busy = false ∧ ∃ cw, s.queue.head? = some (Access.command cw) ∧ decode cw = .ok i

/-- Everything a step can do to the state: reset, the pipeline, one access that touches no register of the engine but the error record or DATA_IN,
or the acceptance of INIT, UPDATE or FINAL. -/
theorem step_effects {s t : State} (h : step s = .next t) :
    (s.resetIn = true ∧ t = resetEvent s)
    ∨ (s.resetIn = false ∧ (t = pipelineStep s ∨ t = pipelineStep (drawn s)))
    ∨ (∃ u rest, s.resetIn = false ∧ (u = { s with queue := rest } ∨ u = { drawn s with queue := rest })
        ∧ ((∃ c, t = recordError c u) ∨ (∃ c, t = returnWord 0 (recordError c u)) ∨ (∃ x, t = returnWord x u)
          ∨ (∃ x, s.queue.head? = some (.wr .dataIn x) ∧ t = { u with dataIn := x }) ∨ t = u))
    ∨ (∃ rest, accepting .init s ∧ t = initEffect { s with queue := rest })
    ∨ (∃ rest, ∃ nb : BitVec 3, accepting (.update nb) s ∧ nb.toNat ≤ 4 ∧ s.spent = false
        ∧ t = absorb (updateBytes nb s.dataIn) { s with queue := rest })
    ∨ (∃ rest, accepting .final s ∧ s.spent = false
        ∧ t = absorb (finalBytes s.bitCount) { s with queue := rest, spent := true }) := by
  rcases step_cases h with ⟨hr, rfl⟩ | ⟨hr, -, rfl⟩ | ⟨hr, hb, a, rest, hq, hp⟩ | ⟨hr, -, -, rfl⟩ | ⟨hr, -, -, rfl⟩ | ⟨hr, -, a, rest, hq, hh, hp⟩
  · exact .inl ⟨hr, rfl⟩
  · exact .inr (.inl ⟨hr, .inl rfl⟩)
  · rcases perform_cases hp with ⟨_, _, _, rfl, _, rfl⟩ | ⟨_, _, rfl, _, rfl⟩ | ⟨_, _, cw, rfl, ht, ha⟩ | ⟨_, _, x, rfl, ht, rfl⟩ | ⟨_, _, _, rfl, _, _, rfl⟩
    · exact .inr (.inr (.inl ⟨_, rest, hr, .inl rfl, .inr (.inr (.inl ⟨_, rfl⟩))⟩))
    · exact .inr (.inr (.inl ⟨_, rest, hr, .inl rfl, .inr (.inl ⟨_, rfl⟩)⟩))
    · obtain ⟨rfl, rfl⟩ := writeTarget_cmd ht
      have hacc : ∀ i, decode cw = .ok i → accepting i s := fun i hi => ⟨hr, hb, cw, by rw [hq]; rfl, hi⟩
      rcases acceptWord_cases (s := { s with queue := rest }) hb ha with ⟨c, rfl⟩ | rfl | ⟨hd, rfl⟩ | ⟨nb, hd, h4, hs, rfl⟩ | ⟨hd, hs, rfl⟩
      · exact .inr (.inr (.inl ⟨_, rest, hr, .inl rfl, .inl ⟨c, rfl⟩⟩))
      · exact .inr (.inr (.inl ⟨_, rest, hr, .inl rfl, .inr (.inr (.inr (.inr rfl)))⟩))
      · exact .inr (.inr (.inr (.inl ⟨rest, hacc _ hd, rfl⟩)))
      · exact .inr (.inr (.inr (.inr (.inl ⟨rest, nb, hacc _ hd, h4, hs, rfl⟩))))
      · exact .inr (.inr (.inr (.inr (.inr ⟨rest, hacc _ hd, hs, rfl⟩))))
    · obtain ⟨rfl, rfl⟩ := writeTarget_dataIn ht
      exact .inr (.inr (.inl ⟨_, rest, hr, .inl rfl, .inr (.inr (.inr (.inl ⟨x, by rw [hq]; rfl, rfl⟩)))⟩))
    · exact .inr (.inr (.inl ⟨_, rest, hr, .inl rfl, .inl ⟨_, rfl⟩⟩))
  · exact .inr (.inl ⟨hr, .inl rfl⟩)
  · exact .inr (.inl ⟨hr, .inr rfl⟩)
  · rcases perform_cases hp with ⟨_, _, _, rfl, _, rfl⟩ | ⟨_, _, rfl, _, rfl⟩ | ⟨_, _, _, rfl, ht, _⟩ | ⟨_, _, x, rfl, ht, rfl⟩ | ⟨_, _, _, rfl, _, _, rfl⟩
    · exact .inr (.inr (.inl ⟨_, rest, hr, .inr rfl, .inr (.inr (.inl ⟨_, rfl⟩))⟩))
    · exact .inr (.inr (.inl ⟨_, rest, hr, .inr rfl, .inr (.inl ⟨_, rfl⟩)⟩))
    · simp [Access.heldWhileBusy, ht] at hh
    · obtain ⟨rfl, rfl⟩ := writeTarget_dataIn ht
      exact .inr (.inr (.inl ⟨_, rest, hr, .inr rfl, .inr (.inr (.inr (.inl ⟨x, by rw [hq]; rfl, rfl⟩)))⟩))
    · exact .inr (.inr (.inl ⟨_, rest, hr, .inr rfl, .inl ⟨_, rfl⟩⟩))

end Sys2Proof.Machine
end

