-- ==== Sys2Proof/Laws/Transform.lean ====
section
/-! SUPPORT. The schedule word by word, and the pipeline's progress through a block in closed form (spec/42_pipeline.md R192, R194). -/

namespace Sys2Proof.Machine

theorem loadBlock_get (blk : Block) (w : Sched) (j : Nat) (hj : j < 64) :
    (loadBlock blk w)[j] =
      if h : j < 16 then be32 blk[4 * j] blk[4 * j + 1] blk[4 * j + 2] blk[4 * j + 3] else w[j] := by
  simp [loadBlock]

theorem extendSchedule_get_ne (w : Sched) (t j : Nat) (hj : j < 64) (h : j ≠ t ∨ t < 16) : (extendSchedule w t)[j] = w[j] := by
  unfold extendSchedule
  split
  · rename_i ht
    rw [Vector.getElem_set_ne]
    omega
  · rfl

theorem extendSchedule_get_eq (w : Sched) (t : Nat) (h16 : 16 ≤ t) (h64 : t < 64) :
    (extendSchedule w t)[t] = smallSigma1 w[t - 2] + w[t - 7] + smallSigma0 w[t - 15] + w[t - 16] := by
  unfold extendSchedule
  rw [dif_pos ⟨h16, h64⟩, Vector.getElem_set_self]

/-- A schedule word no longer changes once its step has been taken. -/
theorem extendTo_get_of_lt (w : Sched) {j m : Nat} (hj : j < 64) (n : Nat) (hm : m ≤ n) (h : j < m ∨ j < 16) :
    (extendTo w n)[j] = (extendTo w m)[j] := by
  induction n with
  | zero => rw [Nat.le_zero.mp hm]
  | succ n ih =>
    by_cases he : m = n + 1
    · rw [he]
    · rw [extendTo, extendSchedule_get_ne _ _ _ hj (by omega), ih (by omega)]

/-- Words 0..15 are those of the block. -/
theorem extendTo_get_low (w : Sched) {j : Nat} (hj : j < 16) (n : Nat) : (extendTo w n)[j] = w[j] := by
  rw [extendTo_get_of_lt w (by omega) n (Nat.zero_le n) (.inr hj), extendTo]

/-- The recurrence of R169, at any later step. -/
theorem extendTo_get_step (w : Sched) {t n : Nat} (h16 : 16 ≤ t) (h64 : t < 64) (hn : t < n) :
    (extendTo w n)[t] =
      smallSigma1 (extendTo w n)[t - 2] + (extendTo w n)[t - 7] + smallSigma0 (extendTo w n)[t - 15] + (extendTo w n)[t - 16] := by
  have hstep : (extendTo w n)[t] = (extendTo w (t + 1))[t] := extendTo_get_of_lt w h64 n hn (.inl (by omega))
  have hback : ∀ k (_ : k < t), (extendTo w n)[k] = (extendTo w t)[k] := fun k hk =>
    extendTo_get_of_lt w (by omega) n (by omega) (.inl hk)
  rw [hstep, extendTo, extendSchedule_get_eq _ _ h16 h64, hback (t - 2) (by omega), hback (t - 7) (by omega), hback (t - 15) (by omega),
    hback (t - 16) (by omega)]

/-- The schedule depends on the first 16 words alone. -/
theorem extendTo_congr {w w' : Sched} (h : ∀ j (_ : j < 16), w[j] = w'[j]) (n : Nat) (j : Nat) (hj : j < 64) (hn : j < 16 ∨ j < n) :
    (extendTo w n)[j] = (extendTo w' n)[j] := by
  induction j using Nat.strongRecOn with
  | ind j ih =>
    by_cases h16 : j < 16
    · rw [extendTo_get_low w h16, extendTo_get_low w' h16, h j h16]
    · rw [extendTo_get_step w (by omega) hj (by omega), extendTo_get_step w' (by omega) hj (by omega), ih (j - 2) (by omega) (by omega) (by omega),
        ih (j - 7) (by omega) (by omega) (by omega), ih (j - 15) (by omega) (by omega) (by omega), ih (j - 16) (by omega) (by omega) (by omega)]

theorem roundAt_congr {w w' : Sched} {t : Nat} (h : ∀ ht : t < 64, w[t] = w'[t]) (v : Work) : roundAt w t v = roundAt w' t v := by
  unfold roundAt
  split
  · rename_i ht
    rw [h ht]
  · rfl

theorem roundAt_extend (w : Sched) (n m : Nat) (hm : n < m) (v : Work) :
    roundAt (extendSchedule (extendTo w n) n) n v = roundAt (extendTo w m) n v := by
  apply roundAt_congr
  intro h64
  exact (extendTo_get_of_lt w h64 m hm (.inl (Nat.lt_succ_self n))).symm

/-- `n` round steps from the start of a block: the schedule so far, and the rounds so far of any longer schedule. -/
theorem pipelineSteps_rounds (s : State) (hb : s.busy = true) (ht : s.t = 0) (m n : Nat) (hn : n ≤ 64) (hm : n ≤ m) :
    pipelineSteps n s =
      { s with w := extendTo s.w n, v := roundsTo (extendTo s.w m) s.v n, t := ⟨n, by omega⟩ } := by
  induction n with
  | zero =>
    cases s
    simp only at ht
    subst ht
    rfl
  | succ n ih =>
    rw [pipelineSteps_succ, ih (by omega) (by omega), pipelineStep]
    simp only [hb, if_true]
    rw [dif_pos (show n < 64 by omega), roundStep]
    simp only [roundAt_extend s.w n m (by omega)]
    rfl

end Sys2Proof.Machine
end

