-- ==== Sys2Proof/Tests/Slice0.lean ====
section
/-! SUPPORT. The package's own tests. Expected values are those of spec/95_test_vectors.md (named V-…) and of the rules named; each witness shows that the
hypotheses of the obligation it is named after can be met, clause by clause. -/

namespace Sys2Proof.Tests

open Sys2Proof.Machine

/-! ### Helpers -/

/-- The next state, if there is one. -/
def after : Host.Outcome State Fault Refusal → Option State
  | .next t => some t
  | .fault _ => none
  | .refused _ => none

/-- An idle engine with `n` bytes counted and `d` in DATA_IN. -/
def atIndex (n : Nat) (d : Word) : State := { State.reset with bitCount := BitVec.ofNat 64 (8 * n), dataIn := d }

/-- A spent engine. -/
def spentState : State := { State.reset with spent := true, bitCount := 512 }

/-- An engine whose round counter is `t`, with or without a block waiting. -/
def busyAt (t : Fin 65) (pend : Bool) : State := { State.reset with busy := true, t := t, pend := pend, spent := pend }

/-- The host is about to make one access. -/
def about (a : Access) (s : State) : State := { s with queue := [a] }

/-- STATUS after one step in which the host makes the access `a`. -/
def statusAfter (a : Access) (s : State) : Option Word := (after (step (about a s))).map statusWord

/-! ### Well-formed terms -/

theorem test_wf_update_bound : (Instr.update 4).wf = true ∧ (Instr.update 5).wf = false ∧ (Instr.update 7).wf = false := by decide

/-! ### Decoding, from the encoding of spec/30_encoding.md R111 and R120 (V-E) -/

theorem test_decode_nop : decode 0b0000000000000000000000000_000_0000 = .ok .nop := by decide

theorem test_decode_init : decode 0b0000000000000000000000000_000_0001 = .ok .init := by decide

theorem test_decode_update : decode 0b0000000000000000000000000_011_0010 = .ok (.update 3) := by decide

theorem test_decode_final : decode 0b0000000000000000000000000_000_0011 = .ok .final := by decide

theorem test_decode_reserved47 : decode 0b1000000000000000000000001_000_0110 = .ok (.reservedOp47 0b10 0x8000008) := by decide

theorem test_decode_reserved8F : decode 0xFFFFFFFF = .ok (.reservedOp8F 7 0xFFFFFFF) := by decide

theorem test_decode_badNb :
    decode 0x52 = .error .badNb ∧ decode 0x72 = .error .badNb ∧ decode 0x10 = .error .badNb ∧ decode 0x23 = .error .badNb := by decide

theorem test_decode_rsvBits : decode 0x81 = .error .rsvBits ∧ decode 0xd2 = .error .rsvBits ∧ decode 0x80000000 = .error .rsvBits := by decide

theorem test_decodeTableWord : decodeTableWord 32 0x42 = some (.update 4) ∧ decodeTableWord 32 0x84 = some (.reservedOp47 0 8) := by decide

theorem test_placed_command_runs_first :
    (after (step (State.reset.withFetchWord 32 0x12))).map statusWord = some 0x00000100 := by decide +kernel

/-! ### The transform (V-F, V-T1) -/

theorem test_sigmas :
    smallSigma0 0x12345678 = 0xe7fce6ee ∧ smallSigma1 0x12345678 = 0xa1f78649 ∧ bigSigma0 0x12345678 = 0x66146474
      ∧ bigSigma1 0x12345678 = 0x3561abda := by decide

theorem test_sigmas_of_ones : smallSigma0 0xffffffff = 0x1fffffff ∧ smallSigma1 0xffffffff = 0x003fffff := by decide

theorem test_ch_maj :
    ch 0xf0f0f0f0 0x12345678 0x9abcdef0 = 0x1a3c5e70 ∧ maj 0xf0f0f0f0 0xff00ff00 0x0f0f0f0f = 0xff00ff00 := by decide

theorem test_round0_abc :
    round 0x428a2f98 0x61626380 (Work.load initialValue)
      = ⟨0x5d6aebcd, 0x6a09e667, 0xbb67ae85, 0x3c6ef372, 0xfa2a4622, 0x510e527f, 0x9b05688c, 0x1f83d9ab⟩ := by decide

theorem test_pad_lengths : padLen 0 = 56 ∧ padLen 3 = 53 ∧ padLen 55 = 1 ∧ padLen 56 = 64 ∧ padLen 63 = 57 := by decide

/-- The first 64 primes, 2 to 311. -/
def primes : List Nat := (List.range 312).filter fun p => 2 ≤ p ∧ ∀ d ∈ List.range p, d < 2 ∨ p % d ≠ 0

/-- R166: `K[t]` is the first 32 bits of the fractional part of the cube root of the t-th prime. -/
theorem test_round_constants :
    primes.length = 64
      ∧ ∀ t : Fin 64, ∃ n < 7,
          (2 ^ 32 * n + (roundConstant t).toNat) ^ 3 ≤ 2 ^ 96 * primes.getD t.val 0
            ∧ 2 ^ 96 * primes.getD t.val 0 < (2 ^ 32 * n + (roundConstant t).toNat + 1) ^ 3 := by decide +kernel

/-- R167: `IV[i]` is the first 32 bits of the fractional part of the square root of the i-th prime. -/
theorem test_initial_value :
    ∀ i : Fin 8, ∃ n < 5,
      (2 ^ 32 * n + initialValue[i].toNat) ^ 2 ≤ 2 ^ 64 * primes.getD i.val 0
        ∧ 2 ^ 64 * primes.getD i.val 0 < (2 ^ 32 * n + initialValue[i].toNat + 1) ^ 2 := by decide +kernel

/-- V-S2: the source's known answer for "abc". -/
theorem test_digest_abc :
    digestOf [0x61, 0x62, 0x63]
      = #v[0xba7816bf, 0x8f01cfea, 0x414140de, 0x5dae2223, 0xb00361a3, 0x96177a9c, 0xb410ff61, 0xf20015ad] := by decide +kernel

/-! ### Commands (V-E, V-C, V-M) -/

theorem test_init_clears : statusAfter (.command 0x01) { spentState with err := true, ecause := 1, ovf := true } = some 0 := by decide +kernel

theorem test_init_keeps_data_in : (after (exec .init (atIndex 3 0xcafef00d))).map State.dataIn = some 0xcafef00d := by decide +kernel

/-- V-C1: bytes 0x11 and 0x22 complete the block, 0x33 and 0x44 start the next. -/
theorem test_update_completes_block :
    (after (exec (.update 4) (atIndex 62 0x11223344))).map
        (fun t => (statusWord t, t.w[15], t.buf[0], t.buf[1]))
      = some (0x00000201, 0x00001122, 0x33, 0x44) := by decide +kernel

/-- V-C15: the counter wraps. -/
theorem test_update_wraps :
    (after (exec (.update 1) (atIndex (2 ^ 61 - 1) 0x62000000))).map (fun t => (statusWord t, t.bitCount, t.marks))
      = some (0x00000009, 0, [.overflow]) := by decide +kernel

/-- V-C10: INDEX 55, one block; the length suffix is 0x1b8. -/
theorem test_final_one_block :
    (after (exec .final (atIndex 55 0))).map (fun t => (statusWord t, t.bitCount, t.pend, t.w[13], t.w[15]))
      = some (0x00000003, 512, false, 0x00000080, 0x000001b8) := by decide +kernel

/-- V-C11: INDEX 56, two blocks; block B waits with the length suffix 0x1c0. -/
theorem test_final_two_blocks :
    (after (exec .final (atIndex 56 0))).map (fun t => (statusWord t, t.bitCount, t.pend, t.buf[62], t.buf[63], t.w[14]))
      = some (0x00000003, 1024, true, 0x01, 0xc0, 0x80000000) := by decide +kernel

/-- V-C13. -/
theorem test_final_twice : statusAfter (.command 0x03) spentState = some 0x00050006 := by decide +kernel

theorem test_update_after_final : statusAfter (.command 0x12) spentState = some 0x00040006 := by decide +kernel

theorem test_reserved_op : statusAfter (.command 0x84) State.reset = some 0x00010004 ∧ statusAfter (.command 0x09) spentState = some 0x00010006 := by
  decide +kernel

/-- V-M3: the first cause is kept, and both errors leave a mark. -/
theorem test_first_cause_kept :
    (after (step (about (.read 0x40 4) (recordError .rsvOp State.reset)))).map (fun t => (statusWord t, t.marks, t.reads))
      = some (0x00010004, [.error .rsvOp, .error .badAcc], [0]) := by decide +kernel

/-- V-M2: a one-byte write to CMD is not decoded. -/
theorem test_bad_access :
    statusAfter (.write 0x00 1 1) spentState = some 0x00060006 ∧ statusAfter (.read 0x06 4) State.reset = some 0x00060004
      ∧ statusAfter (.wr .status 1) State.reset = some 0x00060004 ∧ statusAfter (.rd .cmd) State.reset = some 0 := by decide +kernel

/-! ### Witnesses -/

theorem witness_LegalWordsAreEight :
    (0x52 : Word) ∉ ([0x00000000, 0x00000001, 0x00000002, 0x00000012, 0x00000022, 0x00000032, 0x00000042, 0x00000003] : List Word)
      ∧ (0x80000003 : Word) ∉ ([0x00000000, 0x00000001, 0x00000002, 0x00000012, 0x00000022, 0x00000032, 0x00000042, 0x00000003] : List Word)
      ∧ (0x04 : Word) ∉ ([0x00000000, 0x00000001, 0x00000002, 0x00000012, 0x00000022, 0x00000032, 0x00000042, 0x00000003] : List Word) ∧ State.reset.busy = false := by
  refine ⟨by simp, by simp, by simp, rfl⟩

theorem witness_DecodeAfterEncode :
    (Instr.update 0).wf = true ∧ (Instr.update 4).wf = true ∧ (Instr.reservedOp47 3 0).wf = true ∧ (Instr.reservedOp8F 7 0).wf = true := by decide

theorem witness_EncodeAfterDecode : decode 0x42 = .ok (.update 4) := by decide

theorem witness_OpcodeRowsDisjoint :
    decode 0x0C = .ok (.reservedOp8F 4 0) ∧ (0x0C : Word) &&& (Instr.reservedOp8F 0 0).rowMask = (Instr.reservedOp8F 0 0).rowMatch := by decide

/-- One word for each check, at the edge of its range. -/
theorem witness_DecodeCheckOrder :
    State.reset.busy = false ∧ spentState.busy = false ∧ spentState.spent = true
      ∧ (opField 0x84 = 4 ∧ rsvField 0x84 ≠ 0) ∧ (opField 0x83 = 3 ∧ rsvField 0x83 ≠ 0) ∧ (opField 0x52 = 2 ∧ nbField 0x52 = 5 ∧ rsvField 0x52 = 0)
      ∧ (opField 0x13 = 3 ∧ nbField 0x13 = 1) ∧ (opField 0x42 = 2 ∧ nbField 0x42 = 4 ∧ rsvField 0x42 = 0) ∧ opField 0x03 = 3 ∧ opField 0x01 = 1 := by
  decide

theorem witness_StepRunsAcceptedCommand : (about (.command 0x42) State.reset).acceptsNext 0x42 ∧ decode 0x42 = .ok (.update 4) := by decide

theorem witness_HeldAccessKeepsWaiting :
    (about (.command 1) (busyAt 0 false)).resetIn = false ∧ (about (.command 1) (busyAt 0 false)).busy = true
      ∧ (about (.command 1) (busyAt 0 false)).queue = [.command 1] ∧ (Access.command 1).heldWhileBusy = true
      ∧ (Access.rd (.digest 7)).heldWhileBusy = true := by decide

theorem witness_StepPerformsOldestAccess :
    (about (.rd .status) State.reset).resetIn = false ∧ (about (.rd .status) State.reset).busy = false
      ∧ (about (.rd .status) State.reset).queue = [.rd .status] := by decide

theorem witness_FreeInterleaving :
    (about (.rd .status) (busyAt 5 false)).resetIn = false ∧ (about (.rd .status) (busyAt 5 false)).busy = true
      ∧ (about (.rd .status) (busyAt 5 false)).queue = [.rd .status] ∧ (Access.rd .status).heldWhileBusy = false
      ∧ (Access.wr .dataIn 1).heldWhileBusy = false := by decide

theorem witness_StepWithoutAccess :
    State.reset.resetIn = false ∧ State.reset.queue = [] ∧ State.reset.busy = false ∧ (busyAt 64 false).resetIn = false
      ∧ (busyAt 64 false).queue = [] ∧ (busyAt 64 false).busy = true := by decide

theorem witness_BadAccessesRecorded :
    readTarget 0x40 4 = none ∧ readTarget 0x7F 4 = none ∧ readTarget 0x04 2 = none ∧ readTarget 0x3C 4 = some (.digest 7)
      ∧ writeTarget 0x04 4 = none ∧ writeTarget 0x00 1 = none ∧ writeTarget 0x08 4 = some .dataIn := by decide

theorem witness_ErrorRecordKeepsFirstCause :
    (after (step (recordError .badNb State.reset))).map (fun t => (t.err, t.ecause)) = some (true, 3)
      ∧ (after (step (about (.command 1) (recordError .badNb State.reset)))).map (fun t => (t.err, t.ecause)) = some (false, 0)
      ∧ (after (step { recordError .badNb State.reset with resetIn := true })).map (fun t => (t.err, t.ecause)) = some (false, 0) := by
  decide +kernel

theorem witness_StateArrayWriters :
    (after (step State.reset)).map State.h = some initialValue
      ∧ (after (step (busyAt 64 false))).map State.h = some (finalAdd initialValue (busyAt 64 false).v)
      ∧ (after (step (about (.command 1) { State.reset with h := Vector.replicate 8 0 }))).map State.h = some initialValue := by decide +kernel

theorem witness_BitCountWriters :
    (after (step (about (.command 0x42) (atIndex 62 0)))).map State.bitCount = some 528
      ∧ (after (step (about (.command 3) (atIndex 56 0)))).map State.bitCount = some 1024
      ∧ (after (step (about (.command 1) (atIndex 56 0)))).map State.bitCount = some 0 := by decide +kernel

theorem witness_DataInWriters :
    (after (step (about (.wr .dataIn 7) State.reset))).map State.dataIn = some 7
      ∧ (after (step { atIndex 0 9 with resetIn := true })).map State.dataIn = some 0 := by decide +kernel

theorem witness_BufferWriters :
    (after (step (about (.command 0x12) (atIndex 62 0xAB000000)))).map (fun t => t.buf[62]) = some 0xAB
      ∧ (after (step (about (.command 3) (atIndex 56 0)))).map (fun t => (t.pend, t.buf[62], t.buf[63])) = some (true, 0x01, 0xC0)
      ∧ (after (step (about (.command 1) (atIndex 56 0)))).map (fun t => (t.pend, t.index)) = some (false, 0) := by decide +kernel

theorem witness_SpentAndOvfWriters :
    (after (step (about (.command 3) State.reset))).map State.spent = some true
      ∧ (after (step (about (.command 1) spentState))).map State.spent = some false
      ∧ (after (step (about (.command 0x12) (atIndex (2 ^ 61 - 1) 0)))).map (fun t => (t.ovf, t.bitCount)) = some (true, 0)
      ∧ (after (step (about (.command 1) { State.reset with ovf := true }))).map State.ovf = some false := by decide +kernel

theorem witness_MarksNeverCleared :
    (after (step (about (.command 1) (recordError .rsvOp State.reset)))).map State.marks = some [.error .rsvOp] := by decide +kernel

theorem witness_NopCompletes : (atIndex 5 0).busy = false := by decide

theorem witness_PipelineFootprint :
    ((busyAt 64 true).busy = true ∧ (busyAt 64 true).t = 64 ∧ (busyAt 64 true).pend = true) ∧ (busyAt 63 true).t ≠ 64
      ∧ (busyAt 64 false).pend = false ∧ State.reset.busy = false ∧ 0 < (atIndex 1 0).index.toNat := by decide

theorem witness_InitCompletes :
    (recordError .rsvOp spentState).busy = false ∧ spentState.index = 0 ∧ (atIndex 63 0).busy = false ∧ (atIndex 63 0).index ≠ 0 := by decide

theorem witness_UpdateWithinBlock :
    (atIndex 59 0).busy = false ∧ (atIndex 59 0).spent = false ∧ (4 : BitVec 3).toNat ≤ 4 ∧ (atIndex 59 0).index.toNat + (4 : BitVec 3).toNat < 64
      ∧ (atIndex 63 0).index.toNat + (0 : BitVec 3).toNat < 64 := by decide

theorem witness_UpdateCompletesBlock :
    (atIndex 60 0).busy = false ∧ (atIndex 60 0).spent = false ∧ (4 : BitVec 3).toNat ≤ 4 ∧ 64 ≤ (atIndex 60 0).index.toNat + (4 : BitVec 3).toNat
      ∧ 64 ≤ (atIndex 63 0).index.toNat + (1 : BitVec 3).toNat := by decide

theorem witness_DataInLanes : (0 : BitVec 3).toNat ≤ 4 ∧ (4 : BitVec 3).toNat ≤ 4 ∧ updateBytes 3 0x11223344 = [0x11, 0x22, 0x33] := by decide

theorem witness_UpdateRejections :
    State.reset.busy = false ∧ 4 < (5 : BitVec 3).toNat ∧ 4 < (7 : BitVec 3).toNat ∧ spentState.busy = false ∧ (4 : BitVec 3).toNat ≤ 4
      ∧ spentState.spent = true := by decide

theorem witness_FinalOneBlock :
    (atIndex 55 0).busy = false ∧ (atIndex 55 0).spent = false ∧ (atIndex 55 0).index.toNat < 56 ∧ (atIndex 0 0).index.toNat < 56 := by decide

theorem witness_FinalTwoBlocks :
    (atIndex 56 0).busy = false ∧ (atIndex 56 0).spent = false ∧ 56 ≤ (atIndex 56 0).index.toNat ∧ 56 ≤ (atIndex 63 0).index.toNat := by decide

theorem witness_FinalRejected : spentState.busy = false ∧ spentState.spent = true := by decide

theorem witness_ReservedOpRejected : spentState.busy = false := by decide

theorem witness_HeldCommandHasNoEffect : (busyAt 0 true).busy = true := by decide

theorem witness_UpdateFrame :
    (after (exec (.update 3) (atIndex 60 0))).map (fun t => (t.index, t.buf[59], t.err)) = some (63, 0, false)
      ∧ (∀ k < (3 : BitVec 3).toNat, ((atIndex 60 0).index.toNat + k) % 64 ≠ 59)
      ∧ (after (exec (.update 0) (atIndex 60 0))).map State.draws = some 0
      ∧ (after (exec (.update 4) spentState)).map State.draws = some 0 ∧ (after (exec (.update 4) (busyAt 3 false))).map State.draws = some 0
      ∧ (atIndex 60 0).index.toNat + (3 : BitVec 3).toNat < 64 := by decide +kernel

theorem witness_FinalFrame :
    (after (exec .final (atIndex 55 0))).map (fun t => (t.pend, t.index)) = some (false, 0) ∧ (atIndex 55 0).spent = false ∧ spentState.spent = true
      ∧ (busyAt 3 false).busy = true ∧ (after (exec .final (busyAt 3 false))).map State.bitCount = some 0 := by decide +kernel

theorem witness_NonAbsorbingFrames :
    exec .nop State.reset = .next State.reset ∧ exec .init State.reset = .next (initEffect State.reset)
      ∧ exec (.reservedOp47 1 0) State.reset = .next (recordError .rsvOp State.reset)
      ∧ exec (.reservedOp8F 1 0) State.reset = .next (recordError .rsvOp State.reset) := ⟨rfl, rfl, rfl, rfl⟩

theorem witness_RoundStepResult :
    (busyAt 63 false).busy = true ∧ (busyAt 63 false).t.val < 64 ∧ 16 ≤ (busyAt 16 false).t.val ∧ (busyAt 0 false).t.val < 64 := by decide

theorem witness_AddStepResult :
    (busyAt 64 false).busy = true ∧ (busyAt 64 false).t = 64 ∧ (busyAt 64 false).pend = false ∧ (busyAt 64 true).pend = true := by decide

theorem witness_DrainTakesExactSteps : (busyAt 0 true).busy = true ∧ (busyAt 64 false).busy = true := by decide

theorem witness_PipelineComputesCompress : State.reset.pend = false := by decide

theorem witness_ScheduleWindow :
    (busyAt 15 false).busy = true ∧ (busyAt 15 false).t.val < 64 ∧ 16 ≤ (busyAt 63 false).t.val
      ∧ (∀ j : Fin 64, (busyAt 63 false).w[j] = (busyAt 63 false).w[j]) := by decide +kernel

theorem witness_HeldAccessMeetsIdleEngine :
    (about (.rd (.digest 0)) (busyAt 0 true)).resetIn = false ∧ (about (.rd (.digest 0)) (busyAt 0 true)).busy = true
      ∧ (about (.rd (.digest 0)) (busyAt 0 true)).queue = [.rd (.digest 0)] ∧ (Access.rd (.digest 0)).heldWhileBusy = true := by decide

theorem witness_StepKeepsInvariant : (busyAt 64 true).Inv ∧ (after (step (busyAt 64 true))).map State.pend = some false := by decide +kernel

/-- Two states that differ in the buffer from INDEX on and in an idle pipeline's elements. -/
theorem witness_UnwrittenElementsNeverRead :
    AgreeOnWritten State.reset { State.reset with buf := Vector.replicate 64 0xFF, t := 9, w := Vector.replicate 64 1 }
      ∧ State.reset.Inv ∧ State.Inv { State.reset with buf := Vector.replicate 64 0xFF, t := 9, w := Vector.replicate 64 1 } := by
  refine ⟨⟨rfl, rfl, rfl, rfl, rfl, rfl, rfl, rfl, rfl, rfl, rfl, rfl, rfl, rfl, by decide, ?_, ?_, ?_⟩, by decide, by decide⟩ <;>
    exact fun h => nomatch h

theorem witness_HashProgramGivesDigest :
    8 * [[0x61], [], [0x62, 0x63]].flatten.length < 2 ^ 64
      ∧ (let s : State := { spentState with queue := hashAccesses [[0x61], [], [0x62, 0x63]] }
         s.resetIn = false ∧ s.busy = false ∧ s.pend = false ∧ s.clean ∧ s.queue = hashAccesses [[0x61], [], [0x62, 0x63]])
      ∧ (let s : State := { State.reset with queue := messageAccesses [[0x61], [], [0x62, 0x63]] }
         s.resetIn = false ∧ s.busy = false ∧ s.pend = false ∧ s.clean ∧ s.queue = messageAccesses [[0x61], [], [0x62, 0x63]]
           ∧ s.h = initialValue ∧ s.bitCount = 0 ∧ s.spent = false ∧ s.ovf = false) := by
  refine ⟨by decide, ⟨rfl, rfl, rfl, rfl, rfl⟩, ⟨rfl, rfl, rfl, rfl, rfl, rfl, rfl, rfl, rfl⟩⟩

theorem witness_ResetEventResult :
    ({ about (.command 1) (busyAt 5 false) with resetIn := true } : State).resetIn = true
      ∧ (after (step { about (.command 1) (busyAt 5 false) with resetIn := true })).map State.queue = some []
      ∧ (after (step { about (.rd .status) (busyAt 5 false) with resetIn := true })).map State.queue = some [.rd .status]
      ∧ (after (step { busyAt 5 false with resetIn := true })).map State.queue = some [] := by decide +kernel

theorem witness_ResetMatchesInit :
    ({ busyAt 5 true with resetIn := true } : State).resetIn = true ∧ spentState.busy = false
      ∧ exec .init spentState = .next (initEffect spentState) := ⟨rfl, rfl, rfl⟩

/-- Two instances, at 0x80 and at 0x200, driven by hosts 1 and 2. -/
def twoEngines : Platform := ⟨[⟨1, 1, State.reset⟩, ⟨4, 2, State.reset⟩]⟩

theorem witness_InstancesIndependent : twoEngines.stepAt 1 = .next twoEngines := rfl

theorem witness_PresentRoutesByWindow :
    twoEngines.wf ∧ (∀ x ∈ twoEngines.slots, (0x27F + 1 : Nat) < x.base ∨ x.base + 0x80 ≤ 0x27F + 1)
      ∧ (∃ x, twoEngines.slots[1]? = some x ∧ x.base ≤ 0x27F ∧ 0x27F < x.base + 0x80 ∧ x.driver = 2 ∧ x.driver ≠ 1) := by
  refine ⟨by decide, by decide, ⟨4, 2, State.reset⟩, rfl, by decide, by decide, rfl, by decide⟩

end Sys2Proof.Tests
end

section
/-! SUPPORT, and the proof of O15. The STATUS word bit by bit (spec/10_state.md R48), and the accesses that reach a register by its own offset
(spec/20_memory.md R71 to R74). -/

namespace Sys2Proof.Machine

/-! ### Accesses at a register's own offset -/

@[simp] theorem regAt_offset (r : Reg) : regAt r.offset = some r := by
  cases r with
  | digest i => revert i; decide
  | _ => rfl

theorem Reg.offset_mod_four (r : Reg) : r.offset.val % 4 = 0 := by
  cases r with
  | digest i => revert i; decide
  | _ => rfl

@[simp] theorem readTarget_offset (r : Reg) : readTarget r.offset 4 = some r := by
  simp [readTarget, Reg.offset_mod_four]

theorem writeTarget_offset_of_readOnly {r : Reg} (h : r.writable = false) : writeTarget r.offset 4 = none := by
  simp [writeTarget, h]

/-- A well-formed read returns the register's value and has no other effect. -/
theorem perform_rd (r : Reg) (s : State) : perform (.rd r) s = .next (returnWord (readReg r s) s) := by
  simp [perform, Access.rd]

/-- R74: a write to a read-only register is a bad access. -/
theorem perform_wr_of_readOnly {r : Reg} (h : r.writable = false) (v : Word) (s : State) :
    perform (.wr r v) s = .next (recordError .badAcc s) := by
  simp [perform, Access.wr, writeTarget_offset_of_readOnly h]

/-! ### The word, bit by bit -/

/-- A flag moved to bit `k` is that bit and no other. -/
theorem flagWord_shiftLeft_getLsbD (b : Bool) {k : Nat} (hk : k < 32) (i : Nat) :
    (flagWord b <<< k).getLsbD i = (decide (i = k) && b) := by
  rcases lt_trichotomy i k with h | rfl | h
  · simp [h, h.ne]
  · simp [flagWord, hk]
  · have hpast : 1 ≤ i - k := by omega
    simp [flagWord, h.ne', BitVec.getLsbD_of_ge _ _ hpast]

/-- A field moved to bit `k` of a word wide enough for it stands from bit `k` on. -/
theorem zeroExtend_shiftLeft_getLsbD {n : Nat} (x : BitVec n) {k : Nat} (hk : n + k ≤ 32) (i : Nat) :
    (x.zeroExtend 32 <<< k).getLsbD i = (decide (k ≤ i) && x.getLsbD (i - k)) := by
  rcases lt_or_ge i k with hki | hki
  · simp [hki]
  · by_cases hi : i < 32
    · simp [hi, hki, Nat.not_lt.mpr hki]
    · have hpast : n ≤ i - k := by omega
      simp [hi, BitVec.getLsbD_of_ge _ _ hpast]

/-- R48 from bit 0 upwards: four flags, INDEX, ECAUSE. Past the width of a field its bits are 0. -/
theorem statusWord_getLsbD (s : State) (i : Nat) :
    (statusWord s).getLsbD i =
      (decide (i = 0) && s.busy || decide (i = 1) && s.spent || decide (i = 2) && s.err || decide (i = 3) && s.ovf
        || decide (8 ≤ i) && s.index.getLsbD (i - 8) || decide (16 ≤ i) && s.ecause.getLsbD (i - 16)) := by
  have hbusy : (flagWord s.busy).getLsbD i = (decide (i = 0) && s.busy) := by
    simpa using flagWord_shiftLeft_getLsbD s.busy (k := 0) (by omega) i
  simp only [statusWord, BitVec.getLsbD_or, hbusy, flagWord_shiftLeft_getLsbD _ (show 1 < 32 by omega),
    flagWord_shiftLeft_getLsbD _ (show 2 < 32 by omega), flagWord_shiftLeft_getLsbD _ (show 3 < 32 by omega),
    zeroExtend_shiftLeft_getLsbD _ (show 6 + 8 ≤ 32 by omega), zeroExtend_shiftLeft_getLsbD _ (show 3 + 16 ≤ 32 by omega)]

/-- From bit 8 on: INDEX, whose bits past its six are 0, until ECAUSE. -/
theorem statusWord_getLsbD_of_ge (s : State) {i : Nat} (h : 8 ≤ i) :
    (statusWord s).getLsbD i = if i < 16 then s.index.getLsbD (i - 8) else s.ecause.getLsbD (i - 16) := by
  have hflag : ∀ k < 8, i ≠ k := by omega
  rw [statusWord_getLsbD]
  split
  · next hi => simp [hflag, h, hi]
  · next hi =>
    have hpast : 6 ≤ i - 8 := by omega
    simp [hflag, not_lt.mp hi, BitVec.getLsbD_of_ge _ _ hpast]

/-! ### The fields -/

theorem statusWord_reserved_low (s : State) : (statusWord s).extractLsb' 4 4 = 0 := by
  refine BitVec.eq_of_getLsbD_eq fun i hi => ?_
  have hflag : ∀ k < 4, 4 + i ≠ k := by omega
  have h8 : ¬ 8 ≤ 4 + i := by omega
  have h16 : ¬ 16 ≤ 4 + i := by omega
  simp [hi, statusWord_getLsbD, hflag, h8, h16]

theorem statusWord_index (s : State) : (statusWord s).extractLsb' 8 6 = s.index := by
  refine BitVec.eq_of_getLsbD_eq fun i hi => ?_
  have h16 : 8 + i < 16 := by omega
  simp [hi, h16, statusWord_getLsbD_of_ge]

theorem statusWord_reserved_mid (s : State) : (statusWord s).extractLsb' 14 2 = 0 := by
  refine BitVec.eq_of_getLsbD_eq fun i hi => ?_
  have h8 : 8 ≤ 14 + i := by omega
  have h16 : 14 + i < 16 := by omega
  have hpast : 6 ≤ 14 + i - 8 := by omega
  simp [hi, statusWord_getLsbD_of_ge s h8, h16, BitVec.getLsbD_of_ge _ _ hpast]

theorem statusWord_ecause (s : State) : (statusWord s).extractLsb' 16 3 = s.ecause := by
  refine BitVec.eq_of_getLsbD_eq fun i hi => ?_
  have h8 : 8 ≤ 16 + i := by omega
  simp [hi, statusWord_getLsbD_of_ge s h8]

theorem statusWord_reserved_high (s : State) : (statusWord s).extractLsb' 19 13 = 0 := by
  refine BitVec.eq_of_getLsbD_eq fun i hi => ?_
  have h8 : 8 ≤ 19 + i := by omega
  have h16 : ¬ 19 + i < 16 := by omega
  have hpast : 3 ≤ 19 + i - 16 := by omega
  simp [hi, h16, statusWord_getLsbD_of_ge s h8, BitVec.getLsbD_of_ge _ _ hpast]

/-- Settles O15: the fields by the bits of the word, the two accesses by the register they reach. -/
theorem statusWordFields : Obligations.StatusWordFields := by
  unfold Obligations.StatusWordFields
  refine ⟨fun s => ⟨?_, ?_, ?_, ?_, statusWord_reserved_low s, statusWord_index s, statusWord_reserved_mid s, statusWord_ecause s,
    statusWord_reserved_high s, perform_rd .status s, fun v => perform_wr_of_readOnly rfl v s⟩, by decide⟩
  all_goals
    rw [statusWord_getLsbD]
    simp

end Sys2Proof.Machine
end

section
/-! SUPPORT, and the proofs of O17 and O16. Which accesses are bad and what a bad access does (spec/20_memory.md R72 to R74,
spec/60_exceptions.md R214), and the accesses that reach DATA_IN (R76). -/

namespace Sys2Proof.Machine

/-! ### The bad accesses -/

/-- The readable offsets of R71, over the 128 offsets of the window. -/
theorem regAt_eq_none_iff (off : Fin Config.windowBytes) :
    regAt off = none ↔ off.val ∉ [0x00, 0x04, 0x08, 0x10, 0x14, 0x20, 0x24, 0x28, 0x2C, 0x30, 0x34, 0x38, 0x3C] := by
  revert off
  decide

/-- The writable offsets of R71, over the 128 offsets of the window. -/
theorem regAt_filter_writable_eq_none_iff (off : Fin Config.windowBytes) :
    (regAt off).filter Reg.writable = none ↔ off.val ∉ [0x00, 0x08] := by
  revert off
  decide

theorem readTarget_of_wellFormed {off : Fin Config.windowBytes} {width : Nat} (h : width = 4 ∧ off.val % 4 = 0) :
    readTarget off width = regAt off := if_pos h

theorem readTarget_of_not_wellFormed {off : Fin Config.windowBytes} {width : Nat} (h : ¬(width = 4 ∧ off.val % 4 = 0)) :
    readTarget off width = none := if_neg h

/-- A read is bad by its form, or by the offset it reaches. -/
theorem readTarget_eq_none_iff (off : Fin Config.windowBytes) (width : Nat) :
    readTarget off width = none ↔ width ≠ 4 ∨ off.val % 4 ≠ 0 ∨ regAt off = none := by
  by_cases hform : width = 4 ∧ off.val % 4 = 0
  · rw [readTarget_of_wellFormed hform]
    simp [hform]
  · have hbad : width ≠ 4 ∨ off.val % 4 ≠ 0 := by omega
    simp [readTarget_of_not_wellFormed hform, ← or_assoc, hbad]

/-- A write is bad by its form, or because no writable register stands at its offset. -/
theorem writeTarget_eq_none_iff (off : Fin Config.windowBytes) (width : Nat) :
    writeTarget off width = none ↔ width ≠ 4 ∨ off.val % 4 ≠ 0 ∨ (regAt off).filter Reg.writable = none := by
  by_cases hform : width = 4 ∧ off.val % 4 = 0
  · rw [writeTarget, readTarget_of_wellFormed hform]
    simp [hform]
  · have hbad : width ≠ 4 ∨ off.val % 4 ≠ 0 := by omega
    simp [writeTarget, readTarget_of_not_wellFormed hform, ← or_assoc, hbad]

/-! ### What a bad access does -/

section
variable {off : Fin Config.windowBytes} {width : Nat}

/-- R210, R214: a bad read records BADACC and returns 0. -/
theorem perform_read_of_bad (h : readTarget off width = none) (s : State) :
    perform (.read off width) s = .next (returnWord 0 (recordError .badAcc s)) := by
  simp [perform, h]

/-- R214: a bad write records BADACC, and its value is lost. -/
theorem perform_write_of_bad (h : writeTarget off width = none) (v : Word) (s : State) :
    perform (.write off width v) s = .next (recordError .badAcc s) := by
  simp [perform, h]

theorem heldWhileBusy_read_of_bad (h : readTarget off width = none) : (Access.read off width).heldWhileBusy = false := by
  simp [Access.heldWhileBusy, h]

theorem heldWhileBusy_write_of_bad (h : writeTarget off width = none) (v : Word) :
    (Access.write off width v).heldWhileBusy = false := by
  simp [Access.heldWhileBusy, h]

end

/-- Settles O17: the offsets of the register map decide which accesses are bad, and a bad access has no register to reach. -/
theorem badAccessesRecorded : Obligations.BadAccessesRecorded := by
  unfold Obligations.BadAccessesRecorded
  intro off width v s
  refine ⟨?_, ?_, fun hread => ⟨?_, heldWhileBusy_read_of_bad hread⟩,
    fun hwrite => ⟨perform_write_of_bad hwrite v s, heldWhileBusy_write_of_bad hwrite v⟩⟩
  · rw [readTarget_eq_none_iff, regAt_eq_none_iff]
  · rw [writeTarget_eq_none_iff, regAt_filter_writable_eq_none_iff]
  · rw [perform_read_of_bad hread]
    rfl

/-! ### DATA_IN -/

theorem writeTarget_offset_of_writable {r : Reg} (h : r.writable = true) : writeTarget r.offset 4 = some r := by
  simp [writeTarget, h]

/-- R76: a well-formed DATA_IN write takes effect at once, in every state. -/
theorem perform_wr_dataIn (v : Word) (s : State) : perform (.wr .dataIn v) s = .next { s with dataIn := v } := by
  simp [perform, Access.wr, writeTarget_offset_of_writable (r := .dataIn) rfl]

/-- R75, R76: the hold of a command write does not reach DATA_IN. -/
theorem heldWhileBusy_wr_dataIn (v : Word) : (Access.wr .dataIn v).heldWhileBusy = false := by
  simp [Access.heldWhileBusy, Access.wr, writeTarget_offset_of_writable (r := .dataIn) rfl]

/-- Settles O16: the write and the read of DATA_IN each reach it by its own offset. -/
theorem dataInAccess : Obligations.DataInAccess := by
  unfold Obligations.DataInAccess
  exact fun s v => ⟨perform_wr_dataIn v s, heldWhileBusy_wr_dataIn v, perform_rd .dataIn s⟩

end Sys2Proof.Machine
end

section
/-! SUPPORT, and the proofs of O5 and O4. The command decoder by the fields of the word (spec/30_encoding.md R111, R115), what an idle engine
does with each word, and the eight legal words (R116). -/

namespace Sys2Proof.Machine

/-! ### The fields of a command word -/

/-- R111: OP, NB and RSV are the whole word. -/
theorem commandWord_fields (cw : Word) : commandWord (rsvField cw) (nbField cw) (opField cw) = cw := by
  ext i hi
  simp only [commandWord, rsvField, nbField, opField, BitVec.getElem_or, BitVec.getElem_shiftLeft, BitVec.getElem_setWidth,
    BitVec.getLsbD_extractLsb']
  rcases lt_or_ge i 4 with hop | hop
  · simp [hop, show i < 7 by omega, BitVec.getLsbD_eq_getElem hi]
  · rcases lt_or_ge i 7 with hnb | hnb
    · simp [hnb, Nat.not_lt.mpr hop, show i - 4 < 3 by omega, Nat.add_sub_cancel' hop, BitVec.getLsbD_eq_getElem hi]
    · simp [Nat.not_lt.mpr hop, Nat.not_lt.mpr hnb, show i - 7 < 25 by omega, show ¬ i - 4 < 3 by omega, Nat.add_sub_cancel' hnb,
        BitVec.getLsbD_eq_getElem hi]

/-- OP is reserved, or it names one of the four commands (R112). -/
theorem op_cases : ∀ op : BitVec 4, 4 ≤ op.toNat ∨ op = 0 ∨ op = 1 ∨ op = 2 ∨ op = 3 := by decide

/-- The decoder takes bits 3 and 2 of OP for a reserved OP: both are 0 below 0x4. -/
theorem op_high_bits_of_lt : ∀ op : BitVec 4, ¬ 4 ≤ op.toNat → op[3] = false ∧ op[2] = false := by decide

theorem op_bit_two_of_reserved : ∀ op : BitVec 4, 4 ≤ op.toNat → op[3] = false → op[2] = true := by decide

/-- The third check of R115 fails: NB over 4 for UPDATE, or not 0 for another OP. -/
abbrev NbOutOfRange (nb : BitVec 3) (op : BitVec 4) : Prop := (op = 2 ∧ 4 < nb.toNat) ∨ (op ≠ 2 ∧ nb ≠ 0)

theorem nb_eq_zero_of_not_outOfRange {nb : BitVec 3} {op : BitVec 4} (hnb : ¬ NbOutOfRange nb op) (h2 : op ≠ 2) : nb = 0 :=
  by_contra fun h0 => hnb (.inr ⟨h2, h0⟩)

theorem not_four_lt_nb_of_not_outOfRange {nb : BitVec 3} (hnb : ¬ NbOutOfRange nb 2) : ¬ 4 < nb.toNat :=
  fun h => hnb (.inl ⟨rfl, h⟩)

/-! ### The decoder, by the fields -/

section
variable {cw : Word}

/-- The two rows of the reserved OPs cover 0x4 to 0xF, whatever the other bits are. -/
theorem decode_of_reservedOp (hop : 4 ≤ (opField cw).toNat) :
    (∃ low high, decode cw = .ok (.reservedOp47 low high)) ∨ ∃ low high, decode cw = .ok (.reservedOp8F low high) := by
  cases h3 : (opField cw)[3] with
  | true => exact .inr ⟨_, _, if_pos h3⟩
  | false => exact .inl ⟨cw.extractLsb' 0 2, cw.extractLsb' 4 28, by simp [decode, h3, op_bit_two_of_reserved _ hop h3]⟩

theorem decode_of_rsvField_ne_zero (hop : ¬ 4 ≤ (opField cw).toNat) (hrsv : rsvField cw ≠ 0) : decode cw = .error .rsvBits := by
  obtain ⟨h3, h2⟩ := op_high_bits_of_lt _ hop
  rw [decode, if_neg (by simp [h3]), if_neg (by simp [h2]), if_pos hrsv]

theorem decode_of_opField_zero (hrsv : rsvField cw = 0) (hop : opField cw = 0) : decode cw = requireNoNb cw .nop := by
  simp [decode, hrsv, hop]

theorem decode_of_opField_one (hrsv : rsvField cw = 0) (hop : opField cw = 1) : decode cw = requireNoNb cw .init := by
  simp [decode, hrsv, hop]

theorem decode_of_opField_two (hrsv : rsvField cw = 0) (hop : opField cw = 2) :
    decode cw = if Config.maxNb < (nbField cw).toNat then .error .badNb else .ok (.update (nbField cw)) := by
  simp [decode, hrsv, hop]

theorem decode_of_opField_three (hrsv : rsvField cw = 0) (hop : opField cw = 3) : decode cw = requireNoNb cw .final := by
  simp [decode, hrsv, hop]

theorem requireNoNb_of_eq_zero (hnb : nbField cw = 0) (i : Instr) : requireNoNb cw i = .ok i := by
  simp [requireNoNb, hnb]

theorem requireNoNb_of_ne_zero (hnb : nbField cw ≠ 0) (i : Instr) : requireNoNb cw i = .error .badNb := if_pos hnb

theorem decode_of_nbOutOfRange (hop : ¬ 4 ≤ (opField cw).toNat) (hrsv : rsvField cw = 0) (hnb : NbOutOfRange (nbField cw) (opField cw)) :
    decode cw = .error .badNb := by
  rcases hnb with ⟨h2, hnb⟩ | ⟨h2, hnb⟩
  · exact (decode_of_opField_two hrsv h2).trans (if_pos hnb)
  · rcases op_cases (opField cw) with h | h | h | h | h
    · exact absurd h hop
    · rw [decode_of_opField_zero hrsv h, requireNoNb_of_ne_zero hnb]
    · rw [decode_of_opField_one hrsv h, requireNoNb_of_ne_zero hnb]
    · exact absurd h h2
    · rw [decode_of_opField_three hrsv h, requireNoNb_of_ne_zero hnb]

end

/-! ### A word at an idle engine -/

/-- R134: with NB in range, the SPENT check alone decides. -/
theorem updateEffect_of_le {nb : BitVec 3} {s : State} (h : ¬ 4 < nb.toNat) :
    updateEffect nb s = if s.spent then recordError .updSpent s else absorb (updateBytes nb s.dataIn) s := if_neg h

section
variable {cw : Word} {s : State}

theorem acceptWord_error_idle {e : DecodeError} (hb : s.busy = false) (h : decode cw = .error e) :
    acceptWord cw s = .next (recordError (decodeCause e) s) := by
  rw [acceptWord_error h, accept_idle hb]

/-- R130: an idle engine gives a command its whole effect. -/
theorem acceptWord_ok_idle {i : Instr} {f : State → State} (hb : s.busy = false) (h : decode cw = .ok i) (hf : exec i s = accept f s) :
    acceptWord cw s = .next (f s) := by
  rw [acceptWord_ok h, hf, accept_idle hb]

theorem acceptWord_of_reservedOp (hb : s.busy = false) (hop : 4 ≤ (opField cw).toNat) :
    acceptWord cw s = .next (recordError .rsvOp s) := by
  rcases decode_of_reservedOp hop with ⟨low, high, h⟩ | ⟨low, high, h⟩ <;> exact acceptWord_ok_idle hb h rfl

theorem acceptWord_of_rsvField_ne_zero (hb : s.busy = false) (hop : ¬ 4 ≤ (opField cw).toNat) (hrsv : rsvField cw ≠ 0) :
    acceptWord cw s = .next (recordError .rsvBits s) :=
  acceptWord_error_idle hb (decode_of_rsvField_ne_zero hop hrsv)

theorem acceptWord_of_nbOutOfRange (hb : s.busy = false) (hop : ¬ 4 ≤ (opField cw).toNat) (hrsv : rsvField cw = 0)
    (hnb : NbOutOfRange (nbField cw) (opField cw)) : acceptWord cw s = .next (recordError .badNb s) :=
  acceptWord_error_idle hb (decode_of_nbOutOfRange hop hrsv hnb)

theorem acceptWord_nop (hb : s.busy = false) (hrsv : rsvField cw = 0) (hop : opField cw = 0) (hnb : nbField cw = 0) :
    acceptWord cw s = .next s :=
  acceptWord_ok_idle hb ((decode_of_opField_zero hrsv hop).trans (requireNoNb_of_eq_zero hnb _)) rfl

theorem acceptWord_init (hb : s.busy = false) (hrsv : rsvField cw = 0) (hop : opField cw = 1) (hnb : nbField cw = 0) :
    acceptWord cw s = .next (initEffect s) :=
  acceptWord_ok_idle hb ((decode_of_opField_one hrsv hop).trans (requireNoNb_of_eq_zero hnb _)) rfl

theorem acceptWord_update (hb : s.busy = false) (hrsv : rsvField cw = 0) (hop : opField cw = 2) (hnb : ¬ 4 < (nbField cw).toNat) :
    acceptWord cw s = .next (updateEffect (nbField cw) s) :=
  acceptWord_ok_idle hb ((decode_of_opField_two hrsv hop).trans (if_neg hnb)) rfl

theorem acceptWord_final (hb : s.busy = false) (hrsv : rsvField cw = 0) (hop : opField cw = 3) (hnb : nbField cw = 0) :
    acceptWord cw s = .next (finalEffect s) :=
  acceptWord_ok_idle hb ((decode_of_opField_three hrsv hop).trans (requireNoNb_of_eq_zero hnb _)) rfl

end

/-- Settles O5: each failing check by the decoder's answer, then the four commands by OP. -/
theorem decodeCheckOrder : Obligations.DecodeCheckOrder := by
  unfold Obligations.DecodeCheckOrder
  intro cw s hb
  by_cases hop : 4 ≤ (opField cw).toNat
  · rw [if_pos hop, acceptWord_of_reservedOp hb hop]
  rw [if_neg hop]
  by_cases hrsv : rsvField cw ≠ 0
  · rw [if_pos hrsv, acceptWord_of_rsvField_ne_zero hb hop hrsv]
  rw [if_neg hrsv]
  replace hrsv : rsvField cw = 0 := not_not.mp hrsv
  by_cases hnb : NbOutOfRange (nbField cw) (opField cw)
  · rw [if_pos hnb, acceptWord_of_nbOutOfRange hb hop hrsv hnb]
  rw [if_neg hnb]
  rcases op_cases (opField cw) with h | h | h | h | h
  · exact absurd h hop
  all_goals rw [h] at hnb
  · rw [acceptWord_nop hb hrsv h (nb_eq_zero_of_not_outOfRange hnb (by decide))]
    simp [h]
  · rw [acceptWord_init hb hrsv h (nb_eq_zero_of_not_outOfRange hnb (by decide))]
    simp [h]
  · have hle := not_four_lt_nb_of_not_outOfRange hnb
    rw [acceptWord_update hb hrsv h hle, updateEffect_of_le hle]
    simp [h]
  · rw [acceptWord_final hb hrsv h (nb_eq_zero_of_not_outOfRange hnb (by decide))]
    simp [h, finalEffect]

/-! ### The eight legal words -/

/-- R116: the eight words, in its order. -/
abbrev legalWords : List Word := [0x00000000, 0x00000001, 0x00000002, 0x00000012, 0x00000022, 0x00000032, 0x00000042, 0x00000003]

/-- The words that fail one of the first three checks of R115. -/
abbrev IllegalFields (cw : Word) : Prop :=
  4 ≤ (opField cw).toNat ∨ rsvField cw ≠ 0 ∨ NbOutOfRange (nbField cw) (opField cw)

theorem not_illegalFields_of_mem_legalWords : ∀ cw ∈ legalWords, ¬ IllegalFields cw := by
  intro cw hmem
  fin_cases hmem <;> decide

/-- The fields that pass the checks make up one of the eight words. -/
theorem commandWord_mem_legalWords {nb : BitVec 3} {op : BitVec 4} (hop : ¬ 4 ≤ op.toNat) (hnb : ¬ NbOutOfRange nb op) :
    commandWord 0 nb op ∈ legalWords := by
  have hupdate : ∀ nb : BitVec 3, ¬ NbOutOfRange nb 2 → commandWord 0 nb 2 ∈ legalWords := by decide
  have hother : ∀ op : BitVec 4, ¬ 4 ≤ op.toNat → op ≠ 2 → commandWord 0 0 op ∈ legalWords := by decide
  by_cases h2 : op = 2
  · subst h2
    exact hupdate nb hnb
  · obtain rfl : nb = 0 := nb_eq_zero_of_not_outOfRange hnb h2
    exact hother op hop h2

theorem not_mem_legalWords_iff (cw : Word) : cw ∉ legalWords ↔ IllegalFields cw := by
  refine ⟨fun hmem => ?_, fun hill hmem => not_illegalFields_of_mem_legalWords cw hmem hill⟩
  by_contra hlegal
  obtain ⟨hop, hrsv, hnb⟩ : ¬ 4 ≤ (opField cw).toNat ∧ rsvField cw = 0 ∧ ¬ NbOutOfRange (nbField cw) (opField cw) := by
    simpa only [IllegalFields, not_or, ne_eq, not_not] using hlegal
  have hword : commandWord 0 (nbField cw) (opField cw) = cw := by rw [← hrsv, commandWord_fields]
  exact hmem (hword ▸ commandWord_mem_legalWords hop hnb)

/-- R116: an idle engine rejects every other word with the cause of the check that fails. -/
theorem acceptWord_of_illegalFields {cw : Word} {s : State} (hb : s.busy = false) (hill : IllegalFields cw) :
    ∃ c ∈ [Cause.rsvOp, Cause.rsvBits, Cause.badNb], acceptWord cw s = .next (recordError c s) := by
  by_cases hop : 4 ≤ (opField cw).toNat
  · exact ⟨.rsvOp, by simp, acceptWord_of_reservedOp hb hop⟩
  · by_cases hrsv : rsvField cw = 0
    · have hnb : NbOutOfRange (nbField cw) (opField cw) := by simpa [IllegalFields, hop, hrsv] using hill
      exact ⟨.badNb, by simp, acceptWord_of_nbOutOfRange hb hop hrsv hnb⟩
    · exact ⟨.rsvBits, by simp, acceptWord_of_rsvField_ne_zero hb hop hrsv⟩

/-- Settles O4: the words by their fields, and the rejection by the check that fails. -/
theorem legalWordsAreEight : Obligations.LegalWordsAreEight := by
  unfold Obligations.LegalWordsAreEight
  exact ⟨by decide, not_mem_legalWords_iff, fun cw s hmem hb => acceptWord_of_illegalFields hb ((not_mem_legalWords_iff cw).mp hmem)⟩

end Sys2Proof.Machine
end

section
/-! SUPPORT, and the proof of O39. PadLen on either side of INDEX 56 and the length of a padded message (spec/40_commands.md R137, R142): the padding
of `Pad(m)` is what FINAL absorbs. -/

namespace Sys2Proof.Machine

/-! ### PadLen -/

/-- The length field still fits in the current block. -/
theorem padLen_of_lt {idx : Nat} (h : idx < 56) : padLen idx = 56 - idx := if_pos h

/-- The padding runs on into a second block. -/
theorem padLen_of_le {idx : Nat} (h : 56 ≤ idx) : padLen idx = 120 - idx := if_neg (Nat.not_lt.mpr h)

/-- R137: the buffered bytes and what FINAL absorbs make up one block or two. -/
theorem index_add_padLen {idx : Nat} (hidx : idx < 64) : idx + (padLen idx + 8) = if idx < 56 then 64 else 128 := by
  split
  · rw [padLen_of_lt ‹_›]; omega
  · rw [padLen_of_le (Nat.not_lt.mp ‹_›)]; omega

theorem index_add_padLen_mod {idx : Nat} (hidx : idx < 64) : (idx + (padLen idx + 8)) % 64 = 0 := by
  rw [index_add_padLen hidx]
  split <;> rfl

theorem padLen_bounds {idx : Nat} (hidx : idx < 64) : 1 ≤ padLen idx ∧ padLen idx ≤ 64 := by
  have hsum := index_add_padLen hidx
  split at hsum <;> omega

/-! ### Pad(m) -/

/-- INDEX after `n` bytes; the wrap of `bit_count` does not reach it. -/
theorem indexOf_ofNat_bits (n : Nat) : (indexOf (BitVec.ofNat 64 (8 * n))).toNat = n % 64 := by
  rw [indexOf_toNat, BitVec.toNat_ofNat]
  omega

/-- R142 by R138: the padding of `m` is what FINAL absorbs when `bit_count` is the bits of `m`. -/
theorem pad_eq_append_finalBytes (m : List Byte) : pad m = m ++ finalBytes (BitVec.ofNat 64 (8 * m.length)) := by
  simp only [pad, finalBytes, indexOf_ofNat_bits, List.append_assoc]

theorem pad_length (m : List Byte) : (pad m).length = m.length + (padLen (m.length % 64) + 8) := by
  rw [pad_eq_append_finalBytes, List.length_append, finalBytes_length, indexOf_ofNat_bits]

theorem pad_length_mod (m : List Byte) : (pad m).length % 64 = 0 := by
  rw [pad_length, ← Nat.mod_add_mod]
  exact index_add_padLen_mod (Nat.mod_lt _ (by decide))

/-- Settles O39: PadLen on either side of 56, and the padding of a message as the bytes of FINAL. -/
theorem paddingFillsBlocks : Obligations.PaddingFillsBlocks := by
  unfold Obligations.PaddingFillsBlocks
  refine ⟨fun idx hidx => ⟨fun hlt => ?_, fun hle => ?_, index_add_padLen_mod hidx⟩, finalBytes_length, fun m => ⟨pad_length_mod m, ?_⟩⟩
  · rw [padLen_of_lt hlt]; omega
  · rw [padLen_of_le hle]; omega
  · obtain ⟨hmin, hmax⟩ := padLen_bounds (Nat.mod_lt m.length (by decide : 0 < 64))
    rw [pad_length]; omega

end Sys2Proof.Machine
end

section
/-! SUPPORT, and the proofs of O42, O43 and O44. Rotations and the six word functions bit by bit (spec/00_scope.md R9; spec/41_transform.md R160 to
R165), and the schedule of a block (R169). -/

namespace Sys2Proof.Machine

/-! ### Rotations and the sigma functions, bit by bit -/

section
variable (x : Word) {i : Nat} (hi : i < 32)
include hi

/-- R9: bit `i` comes from the right shift, or from the left shift when `i + n` runs past bit 31. -/
theorem rotr_getLsbD {n : Nat} (hn : n ≤ 32) : (rotr x n).getLsbD i = x.getLsbD ((i + n) % 32) := by
  rw [rotr, BitVec.getLsbD_or, BitVec.getLsbD_ushiftRight, BitVec.getLsbD_shiftLeft, Nat.add_comm n i]
  by_cases hwrap : i + n < 32
  · have hleft : i < 32 - n := by omega
    simp [Nat.mod_eq_of_lt hwrap, hleft]
  · have hleft : ¬ i < 32 - n := by omega
    have hmod : (i + n) % 32 = i - (32 - n) := by omega
    simp [hmod, hleft, hi, BitVec.getLsbD_of_ge x (i + n) (not_lt.mp hwrap)]

theorem smallSigma0_getLsbD :
    (smallSigma0 x).getLsbD i = ((x.getLsbD ((i + 7) % 32) ^^ x.getLsbD ((i + 18) % 32)) ^^ x.getLsbD (i + 3)) := by
  simp [smallSigma0, rotr_getLsbD x hi, Nat.add_comm 3 i]

theorem smallSigma1_getLsbD :
    (smallSigma1 x).getLsbD i = ((x.getLsbD ((i + 17) % 32) ^^ x.getLsbD ((i + 19) % 32)) ^^ x.getLsbD (i + 10)) := by
  simp [smallSigma1, rotr_getLsbD x hi, Nat.add_comm 10 i]

theorem bigSigma0_getLsbD :
    (bigSigma0 x).getLsbD i = ((x.getLsbD ((i + 2) % 32) ^^ x.getLsbD ((i + 13) % 32)) ^^ x.getLsbD ((i + 22) % 32)) := by
  simp [bigSigma0, rotr_getLsbD x hi]

theorem bigSigma1_getLsbD :
    (bigSigma1 x).getLsbD i = ((x.getLsbD ((i + 6) % 32) ^^ x.getLsbD ((i + 11) % 32)) ^^ x.getLsbD ((i + 25) % 32)) := by
  simp [bigSigma1, rotr_getLsbD x hi]

end

/-- R160: the shift and both rotations of 0 are 0. -/
theorem smallSigma0_zero : smallSigma0 0 = 0 := by decide

theorem smallSigma1_zero : smallSigma1 0 = 0 := by decide

/-- Settles O42: the bits from those of a rotation, the printed values by evaluation. -/
theorem sigmaBits : Obligations.SigmaBits := by
  unfold Obligations.SigmaBits
  refine ⟨fun x i hi => ⟨smallSigma0_getLsbD x hi, smallSigma1_getLsbD x hi, bigSigma0_getLsbD x hi, bigSigma1_getLsbD x hi⟩,
    ⟨smallSigma0_zero, ?_, ?_⟩, ?_, ?_, ?_⟩
  all_goals decide

/-! ### Ch and Maj, bit by bit -/

/-- R164: at a bit where `x` has 1 only the first term is left, at one where it has 0 only the second. -/
theorem ch_getLsbD (x y z : Word) {i : Nat} (hi : i < 32) :
    (ch x y z).getLsbD i = if x.getLsbD i then y.getLsbD i else z.getLsbD i := by
  rw [ch, BitVec.getLsbD_xor, BitVec.getLsbD_and, BitVec.getLsbD_and, BitVec.getLsbD_not]
  cases x.getLsbD i <;> simp [hi]

/-- R165, at one bit: the xor of the three pairwise products counts to two or more. -/
theorem xor_and_eq_two_le (a b c : Bool) : ((a && b) ^^ (a && c) ^^ (b && c)) = decide (2 ≤ a.toNat + b.toNat + c.toNat) := by
  revert a b c
  decide

theorem maj_getLsbD (x y z : Word) (i : Nat) :
    (maj x y z).getLsbD i = decide (2 ≤ (x.getLsbD i).toNat + (y.getLsbD i).toNat + (z.getLsbD i).toNat) := by
  rw [← xor_and_eq_two_le, maj]
  simp only [BitVec.getLsbD_xor, BitVec.getLsbD_and]

theorem ch_allOnes (y z : Word) : ch (BitVec.allOnes 32) y z = y := by
  refine BitVec.eq_of_getLsbD_eq fun i hi => ?_
  rw [ch_getLsbD _ y z hi, BitVec.getLsbD_allOnes, decide_eq_true hi, if_pos rfl]

theorem ch_zero (y z : Word) : ch 0#32 y z = z := by
  refine BitVec.eq_of_getLsbD_eq fun i hi => ?_
  rw [ch_getLsbD _ y z hi, BitVec.getLsbD_zero, if_neg Bool.false_ne_true]

/-- Where `x` and `y` differ, `x` stands twice. -/
theorem maj_self_left (x y : Word) : maj x x y = x := by
  simp [maj]

/-- Settles O43: the bits of both functions, their corner cases from the bits, the two examples by evaluation. -/
theorem chooseAndMajority : Obligations.ChooseAndMajority := by
  unfold Obligations.ChooseAndMajority
  refine ⟨fun x y z i hi => ⟨ch_getLsbD x y z hi, maj_getLsbD x y z i⟩, fun x y z => ⟨rfl, rfl⟩,
    fun x y z => ⟨ch_allOnes y z, ch_zero y z, maj_self_left x y⟩, ?_, ?_⟩
  all_goals decide

/-! ### The schedule of a block -/

theorem schedule_get_low (blk : Block) {j : Nat} (hj : j < 16) :
    (schedule blk)[j] = be32 blk[4 * j] blk[4 * j + 1] blk[4 * j + 2] blk[4 * j + 3] := by
  rw [schedule, extendTo_get_low _ hj, loadBlock_get _ _ _ (by omega), dif_pos hj]

theorem schedule_get_step (blk : Block) {t : Nat} (h16 : 16 ≤ t) (h64 : t < 64) :
    (schedule blk)[t] =
      smallSigma1 (schedule blk)[t - 2] + (schedule blk)[t - 7] + smallSigma0 (schedule blk)[t - 15] + (schedule blk)[t - 16] :=
  extendTo_get_step _ h16 h64 h64

/-- R169: `σ0(0) = σ1(0) = 0`, so the recurrence keeps an all-zero start all zero. -/
theorem schedule_replicate_zero_get (t : Nat) (h64 : t < 64) : (schedule (Vector.replicate 64 0))[t] = 0 := by
  induction t using Nat.strongRecOn with
  | ind t ih =>
    by_cases h16 : t < 16
    · simp [schedule_get_low _ h16, be32]
    · rw [schedule_get_step _ (by omega) h64, ih (t - 2) (by omega), ih (t - 7) (by omega), ih (t - 15) (by omega), ih (t - 16) (by omega),
        smallSigma0_zero, smallSigma1_zero]
      rfl

theorem schedule_replicate_zero : schedule (Vector.replicate 64 0) = Vector.replicate 64 0 :=
  Vector.ext fun t h64 => by rw [schedule_replicate_zero_get t h64, Vector.getElem_replicate]

/-- Settles O44: the two kinds of schedule words, the all-zero block by the recurrence, the words of "abc" by evaluation. -/
theorem scheduleRecurrence : Obligations.ScheduleRecurrence := by
  unfold Obligations.ScheduleRecurrence
  refine ⟨fun blk => ⟨fun _ => schedule_get_low blk, fun _ => schedule_get_step blk⟩, schedule_replicate_zero, ?_, ?_, ?_⟩
  all_goals decide +kernel

end Sys2Proof.Machine
end

section
/-! SUPPORT, and the proof of O45. A pipeline step by the round counter, and round `t` with its constant (spec/42_pipeline.md R192; spec/41_transform.md
R169, R170). -/

namespace Sys2Proof.Machine

theorem pipelineStep_of_lt {s : State} (hb : s.busy = true) (ht : s.t.val < 64) : pipelineStep s = roundStep s ht := by
  rw [pipelineStep, if_pos hb, dif_pos ht]

theorem roundAt_of_lt (w : Sched) {t : Nat} (ht : t < 64) (v : Work) : roundAt w t v = round (roundConstant ⟨t, ht⟩) w[t] v := dif_pos ht

/-- R192: the round reads the word the same step has written. -/
theorem roundStep_eq (s : State) (ht : s.t.val < 64) :
    roundStep s ht = { s with
      w := extendSchedule s.w s.t.val
      v := round (roundConstant ⟨s.t.val, ht⟩) (extendSchedule s.w s.t.val)[s.t.val] s.v
      t := ⟨s.t.val + 1, by omega⟩ } := by
  rw [roundStep, roundAt_of_lt _ ht]

/-- R191, R192: the first step of a block is round 0, with the block's first word and the state array. -/
theorem pipelineStep_issue (s : State) :
    pipelineStep (issue s) = { issue s with
      v := round (roundConstant 0) (be32 s.buf[0] s.buf[1] s.buf[2] s.buf[3]) (Work.load s.h)
      t := 1 } := by
  have hword : (loadBlock s.buf s.w)[0] = be32 s.buf[0] s.buf[1] s.buf[2] s.buf[3] := loadBlock_get s.buf s.w 0 (by decide)
  rw [pipelineStep_of_lt rfl (show (issue s).t.val < 64 from Nat.zero_lt_succ 63), roundStep_eq, ← hword]
  rfl

/-- Settles O45: the new schedule is `extendSchedule`'s, known word by word; the step of "abc" is round 0 on numerals. -/
theorem roundStepResult : Obligations.RoundStepResult := by
  unfold Obligations.RoundStepResult
  refine ⟨fun s ht hb => ⟨extendSchedule s.w s.t.val, fun j hj hkeep => ?_, fun h16 => ?_, ?_⟩, ?_, ?_⟩
  · exact extendSchedule_get_ne s.w s.t.val j hj (by omega)
  · exact extendSchedule_get_eq s.w s.t.val h16 ht
  · rw [pipelineStep_of_lt hb ht, roundStep_eq]
    rfl
  · rw [pipelineStep_issue]
    decide
  · rw [pipelineStep_issue]

end Sys2Proof.Machine
end

section
/-! SUPPORT, and the proof of O18. A word is the encoding of what it decodes to (spec/30_encoding.md R120), and the error record over a step
(spec/60_exceptions.md R212). -/

namespace Sys2Proof.Machine

/-! ### The word behind an accepted command -/

theorem map_encode_decode_of_mem_legalWords : ∀ cw ∈ legalWords, (decode cw).map encode = .ok cw := by
  intro cw hmem
  fin_cases hmem <;> decide

/-- R116: a decoded word is a legal one, or its OP is reserved. -/
theorem mem_legalWords_of_decode_ok {cw : Word} {i : Instr} (h : decode cw = .ok i) (hop : ¬ 4 ≤ (opField cw).toNat) :
    cw ∈ legalWords := by
  by_contra hmem
  by_cases hrsv : rsvField cw = 0
  · have hnb : NbOutOfRange (nbField cw) (opField cw) := by simpa [IllegalFields, hop, hrsv] using (not_mem_legalWords_iff cw).mp hmem
    simp [decode_of_nbOutOfRange hop hrsv hnb] at h
  · simp [decode_of_rsvField_ne_zero hop hrsv] at h

/-- INIT has one word: a reserved OP decodes to a reserved row, and of the legal words one alone encodes INIT. -/
theorem eq_encode_init_of_decode {cw : Word} (h : decode cw = .ok .init) : cw = encode .init := by
  have hop : ¬ 4 ≤ (opField cw).toNat := fun hop => by
    rcases decode_of_reservedOp hop with ⟨low, high, hd⟩ | ⟨low, high, hd⟩ <;> simp [hd] at h
  have hword := map_encode_decode_of_mem_legalWords cw (mem_legalWords_of_decode_ok h hop)
  rw [h] at hword
  exact (Except.ok.inj hword).symm

theorem acceptsNext_of_accepting_init {s : State} (h : accepting .init s) : s.acceptsNext (encode .init) := by
  obtain ⟨hr, hb, cw, hq, hd⟩ := h
  exact ⟨hr, hb, eq_encode_init_of_decode hd ▸ hq⟩

/-! ### The error record -/

@[simp] theorem pipelineStep_err (s : State) : (pipelineStep s).err = s.err := by
  rcases pipelineStep_cases s with ⟨-, h⟩ | ⟨-, ht, h⟩ | ⟨-, -, -, h⟩ | ⟨-, -, -, h⟩ <;> simp [h]

@[simp] theorem pipelineStep_ecause (s : State) : (pipelineStep s).ecause = s.ecause := by
  rcases pipelineStep_cases s with ⟨-, h⟩ | ⟨-, ht, h⟩ | ⟨-, -, -, h⟩ | ⟨-, -, -, h⟩ <;> simp [h]

/-- ERR is set, and the cause on record is the one of `s`. -/
def KeepsErrorRecord (s t : State) : Prop := t.err = true ∧ t.ecause = s.ecause

/-- R212: once ERR is set, a later error leaves the cause. -/
theorem recordError_keepsErrorRecord {s u : State} (hu : KeepsErrorRecord s u) (c : Cause) : KeepsErrorRecord s (recordError c u) := by
  obtain ⟨herr, hcause⟩ := hu
  exact ⟨rfl, by simp [herr, hcause]⟩

theorem pipelineStep_keepsErrorRecord {s u : State} (hu : KeepsErrorRecord s u) : KeepsErrorRecord s (pipelineStep u) :=
  ⟨(pipelineStep_err u).trans hu.1, (pipelineStep_ecause u).trans hu.2⟩

theorem absorb_keepsErrorRecord {s u : State} (hu : KeepsErrorRecord s u) (bs : List Byte) : KeepsErrorRecord s (absorb bs u) :=
  ⟨(absorb_frame bs u).err.trans hu.1, (absorb_frame bs u).ecause.trans hu.2⟩

/-- R212: reset and INIT clear the record; every other effect of a step keeps it. -/
theorem step_keeps_or_clears_errorRecord {s t : State} (h : step s = .next t) (herr : s.err = true) :
    KeepsErrorRecord s t ∨ (t.err = false ∧ t.ecause = 0 ∧ (s.resetIn = true ∨ s.acceptsNext (encode .init))) := by
  rcases step_effects h with ⟨hr, rfl⟩ | ⟨-, rfl | rfl⟩ | ⟨u, rest, -, hu, haccess⟩ | ⟨rest, hacc, rfl⟩ | ⟨rest, nb, -, -, -, rfl⟩
    | ⟨rest, -, -, rfl⟩
  · exact .inr ⟨resetEvent_err s, resetEvent_ecause s, .inl hr⟩
  · exact .inl (pipelineStep_keepsErrorRecord ⟨herr, rfl⟩)
  · exact .inl (pipelineStep_keepsErrorRecord ⟨herr, rfl⟩)
  · have hkeep : KeepsErrorRecord s u := by rcases hu with rfl | rfl <;> exact ⟨herr, rfl⟩
    refine .inl ?_
    rcases haccess with ⟨c, rfl⟩ | ⟨c, rfl⟩ | ⟨x, rfl⟩ | ⟨x, -, rfl⟩ | rfl
    · exact recordError_keepsErrorRecord hkeep c
    · exact recordError_keepsErrorRecord hkeep c
    · exact hkeep
    · exact hkeep
    · exact hkeep
  · exact .inr ⟨initEffect_err _, initEffect_ecause _, .inr (acceptsNext_of_accepting_init hacc)⟩
  · exact .inl (absorb_keepsErrorRecord (u := { s with queue := rest }) ⟨herr, rfl⟩ _)
  · exact .inl (absorb_keepsErrorRecord (u := { s with queue := rest, spent := true }) ⟨herr, rfl⟩ _)

/-- Settles O18: the record's definition, and the effects of a step that keep or clear it. -/
theorem errorRecordKeepsFirstCause : Obligations.ErrorRecordKeepsFirstCause := by
  unfold Obligations.ErrorRecordKeepsFirstCause
  exact ⟨fun _ _ => rfl, fun _ _ => step_keeps_or_clears_errorRecord⟩

end Sys2Proof.Machine
end

section
/-! The proof of O58. What the host reads after the reset event and after INIT (spec/70_reset_and_hazards.md R241). -/

namespace Sys2Proof.Machine

theorem step_of_resetIn {s : State} (h : s.resetIn = true) : step s = .next (resetEvent s) := by
  simp [step, advance, h]

theorem exec_init_of_idle {s : State} (h : s.busy = false) : exec .init s = .next (initEffect s) :=
  accept_idle h

/-- R48: with every field 0 the word is 0. -/
theorem statusWord_eq_zero {s : State} (hbusy : s.busy = false) (hspent : s.spent = false) (herr : s.err = false) (hovf : s.ovf = false)
    (hindex : s.index = 0) (hecause : s.ecause = 0) : statusWord s = 0 := by
  simp [statusWord, flagWord, hbusy, hspent, herr, hovf, hindex, hecause]

/-- R240, R49 as the host reads them. -/
theorem resetEvent_hostView (s : State) : (resetEvent s).hostView = ⟨0, 0, initialValue, 0⟩ := by
  have hstatus : statusWord (resetEvent s) = 0 := statusWord_eq_zero rfl rfl rfl rfl (resetEvent_index s) rfl
  simp [State.hostView, hstatus]

/-- R132 as the host reads it: INIT leaves DATA_IN, and BUSY, which is 0 in an idle state. -/
theorem initEffect_hostView {s : State} (h : s.busy = false) : (initEffect s).hostView = ⟨0, 0, initialValue, s.dataIn⟩ := by
  have hstatus : statusWord (initEffect s) = 0 :=
    statusWord_eq_zero ((initEffect_busy s).trans h) (initEffect_spent s) (initEffect_err s) (initEffect_ovf s) (initEffect_index s)
      (initEffect_ecause s)
  simp [State.hostView, hstatus]

/-- Settles O58: the two views, computed, differ in DATA_IN alone. -/
theorem resetMatchesInit : Obligations.ResetMatchesInit := by
  unfold Obligations.ResetMatchesInit
  intro s idle t u hreset hidle hstep hinit
  obtain rfl : resetEvent s = t := by simpa [step_of_resetIn hreset] using hstep
  obtain rfl : initEffect idle = u := by simpa [exec_init_of_idle hidle] using hinit
  rw [resetEvent_hostView, initEffect_hostView hidle]

end Sys2Proof.Machine
end

section
/-! SUPPORT, and the proofs of O1, O2, O3 and O6. The two reserved rows of the decoder and the encoder bit by bit, and the row a word matches by its OP
(spec/30_encoding.md R110, R115, R120). -/

namespace Sys2Proof.Machine

/-! ### The words of the reserved rows, bit by bit -/

section
variable {i : Nat} (hi : i < 32)
include hi

theorem encode_reservedOp8F_getLsbD (low : BitVec 3) (high : BitVec 28) :
    (encode (.reservedOp8F low high)).getLsbD i = if i < 3 then low.getLsbD i else if i = 3 then true else high.getLsbD (i - 4) := by
  have hop : (0x8 : Word).getLsbD i = decide (i = 3) := by interval_cases i <;> rfl
  simp only [encode, BitVec.getLsbD_or, BitVec.getLsbD_shiftLeft, BitVec.getLsbD_setWidth, hop]
  rcases lt_trichotomy i 3 with h | rfl | h
  · simp [h, hi, h.ne, show i < 4 by omega]
  · simp
  · simp [hi, h.ne', h.le, show ¬ i < 4 by omega, show i - 4 < 32 by omega]

theorem encode_reservedOp47_getLsbD (low : BitVec 2) (high : BitVec 28) :
    (encode (.reservedOp47 low high)).getLsbD i = if i < 2 then low.getLsbD i else if i < 4 then decide (i = 2) else high.getLsbD (i - 4) := by
  have hop : (0x4 : Word).getLsbD i = decide (i = 2) := by interval_cases i <;> rfl
  simp only [encode, BitVec.getLsbD_or, BitVec.getLsbD_shiftLeft, BitVec.getLsbD_setWidth, hop]
  by_cases hlow : i < 2
  · simp [hlow, hi, hlow.ne, show i < 4 by omega]
  have hpast : low.getLsbD i = false := BitVec.getLsbD_of_ge low i (by omega)
  by_cases h4 : i < 4
  · simp [hlow, hi, h4, hpast]
  · simp [hlow, hi, h4, hpast, show i ≠ 2 by omega, show i - 4 < 32 by omega]

end

/-! ### The reserved rows of the decoder -/

section
variable {cw : Word}

/-- Bit 3 of OP selects the row of 0x8..0xF before any other check. -/
theorem decode_of_op_bit_three (h : cw.getLsbD 3 = true) :
    decode cw = .ok (.reservedOp8F (cw.extractLsb' 0 3) (cw.extractLsb' 4 28)) :=
  if_pos (by simpa [opField] using h)

/-- Bit 2 of OP selects the row of 0x4..0x7 when bit 3 is 0. -/
theorem decode_of_op_bit_two (h3 : cw.getLsbD 3 = false) (h2 : cw.getLsbD 2 = true) :
    decode cw = .ok (.reservedOp47 (cw.extractLsb' 0 2) (cw.extractLsb' 4 28)) := by
  rw [decode, if_neg (by simpa [opField] using h3), if_pos (by simpa [opField] using h2)]

/-- R120: OP bit 3 and the bits the row does not examine are the whole word. -/
theorem encode_reservedOp8F_fields (h : cw.getLsbD 3 = true) :
    encode (.reservedOp8F (cw.extractLsb' 0 3) (cw.extractLsb' 4 28)) = cw := by
  refine BitVec.eq_of_getLsbD_eq fun i hi => ?_
  rw [encode_reservedOp8F_getLsbD hi]
  split
  · next hlow => simp [hlow]
  · split
    · next hop => rw [hop, h]
    · simp [show i - 4 < 28 by omega, show 4 + (i - 4) = i by omega]

theorem encode_reservedOp47_fields (h3 : cw.getLsbD 3 = false) (h2 : cw.getLsbD 2 = true) :
    encode (.reservedOp47 (cw.extractLsb' 0 2) (cw.extractLsb' 4 28)) = cw := by
  refine BitVec.eq_of_getLsbD_eq fun i hi => ?_
  rw [encode_reservedOp47_getLsbD hi]
  split
  · next hlow => simp [hlow]
  · split
    · obtain rfl | rfl : i = 2 ∨ i = 3 := by omega
      · exact h2.symm
      · exact h3.symm
    · simp [show i - 4 < 28 by omega, show 4 + (i - 4) = i by omega]

end

theorem decode_encode_reservedOp8F (low : BitVec 3) (high : BitVec 28) :
    decode (encode (.reservedOp8F low high)) = .ok (.reservedOp8F low high) := by
  have hlow : (encode (.reservedOp8F low high)).extractLsb' 0 3 = low :=
    BitVec.eq_of_getLsbD_eq fun i hi => by simp [hi, encode_reservedOp8F_getLsbD (show i < 32 by omega)]
  have hhigh : (encode (.reservedOp8F low high)).extractLsb' 4 28 = high :=
    BitVec.eq_of_getLsbD_eq fun i hi => by
      simp [hi, encode_reservedOp8F_getLsbD (show 4 + i < 32 by omega), show ¬ 4 + i < 3 by omega, show 4 + i ≠ 3 by omega]
  rw [decode_of_op_bit_three (encode_reservedOp8F_getLsbD (by decide) low high), hlow, hhigh]

theorem decode_encode_reservedOp47 (low : BitVec 2) (high : BitVec 28) :
    decode (encode (.reservedOp47 low high)) = .ok (.reservedOp47 low high) := by
  have hlow : (encode (.reservedOp47 low high)).extractLsb' 0 2 = low :=
    BitVec.eq_of_getLsbD_eq fun i hi => by simp [hi, encode_reservedOp47_getLsbD (show i < 32 by omega)]
  have hhigh : (encode (.reservedOp47 low high)).extractLsb' 4 28 = high :=
    BitVec.eq_of_getLsbD_eq fun i hi => by
      simp [hi, encode_reservedOp47_getLsbD (show 4 + i < 32 by omega), show ¬ 4 + i < 2 by omega]
  rw [decode_of_op_bit_two (encode_reservedOp47_getLsbD (by decide) low high) (encode_reservedOp47_getLsbD (by decide) low high), hlow, hhigh]

/-- Settles O1: the legal words by evaluation, the reserved rows by the bits of their words. -/
theorem decodeAfterEncode : Obligations.DecodeAfterEncode := by
  unfold Obligations.DecodeAfterEncode
  intro i hwf
  cases i with
  | nop => decide
  | init => decide
  | update nb => revert nb; decide
  | final => decide
  | reservedOp47 low high => exact decode_encode_reservedOp47 low high
  | reservedOp8F low high => exact decode_encode_reservedOp8F low high

/-! ### The word behind a decoded command -/

theorem map_wf_decode_of_mem_legalWords : ∀ cw ∈ legalWords, (decode cw).map Instr.wf = .ok true := by
  intro cw hmem
  fin_cases hmem <;> decide

theorem wf_and_encode_of_decode {cw : Word} {i : Instr} (h : decode cw = .ok i) : i.wf = true ∧ encode i = cw := by
  by_cases hop : 4 ≤ (opField cw).toNat
  · cases h3 : cw.getLsbD 3 with
    | true =>
      rw [decode_of_op_bit_three h3] at h
      obtain rfl := Except.ok.inj h
      exact ⟨rfl, encode_reservedOp8F_fields h3⟩
    | false =>
      have h2 : cw.getLsbD 2 = true := by
        simpa [opField] using op_bit_two_of_reserved (opField cw) hop (by simpa [opField] using h3)
      rw [decode_of_op_bit_two h3 h2] at h
      obtain rfl := Except.ok.inj h
      exact ⟨rfl, encode_reservedOp47_fields h3 h2⟩
  · have hmem := mem_legalWords_of_decode_ok h hop
    have hwf := map_wf_decode_of_mem_legalWords cw hmem
    have hword := map_encode_decode_of_mem_legalWords cw hmem
    rw [h] at hwf hword
    exact ⟨Except.ok.inj hwf, Except.ok.inj hword⟩

/-- Settles O2: a word with a reserved OP by its bits, any other by the list of legal words. -/
theorem encodeAfterDecode : Obligations.EncodeAfterDecode := by
  unfold Obligations.EncodeAfterDecode
  exact fun _ _ => wf_and_encode_of_decode

/-- The word an engine accepts as `i` is the one word of `i`. -/
theorem acceptsNext_of_accepting {i : Instr} {s : State} (h : accepting i s) : s.acceptsNext (encode i) := by
  obtain ⟨hr, hb, cw, hq, hd⟩ := h
  exact ⟨hr, hb, (wf_and_encode_of_decode hd).2 ▸ hq⟩

/-! ### The rows of the opcode table -/

/-- The match of the one row whose OPs include `op`. -/
def rowMatchOf (op : BitVec 4) : Word :=
  if op.getLsbD 3 then 0x8 else if op.getLsbD 2 then 0x4 else op.setWidth 32

theorem opField_and (x y : Word) : opField (x &&& y) = opField x &&& opField y := by
  simp [opField, BitVec.extractLsb'_and]

/-- R120: the masks all cover enough of OP to tell the rows apart. -/
theorem rowMatch_of_matches {cw : Word} {i : Instr} (h : cw &&& i.rowMask = i.rowMatch) : i.rowMatch = rowMatchOf (opField cw) := by
  have hop : opField cw &&& opField i.rowMask = opField i.rowMatch := by rw [← opField_and, h]
  generalize opField cw = op at hop ⊢
  clear h
  cases i <;> simp only [Instr.rowMask, Instr.rowMatch] at hop ⊢ <;> revert op <;> decide

/-- A decoded word matches the row of what it decodes to. -/
theorem matches_row_of_decode {cw : Word} {i : Instr} (h : decode cw = .ok i) : cw &&& i.rowMask = i.rowMatch := by
  obtain ⟨hwf, rfl⟩ := wf_and_encode_of_decode h
  cases i with
  | nop => exact Laws.TableRow.nop hwf
  | init => exact Laws.TableRow.init hwf
  | update nb => exact Laws.TableRow.update nb hwf
  | final => exact Laws.TableRow.final hwf
  | reservedOp47 low high => exact Laws.TableRow.reservedOp47 low high hwf
  | reservedOp8F low high => exact Laws.TableRow.reservedOp8F low high hwf

/-- Settles O3: OP decides the row, for the row of the decoded command as for any other. -/
theorem opcodeRowsDisjoint : Obligations.OpcodeRowsDisjoint := by
  unfold Obligations.OpcodeRowsDisjoint
  intro cw i j hd hj
  rw [rowMatch_of_matches (matches_row_of_decode hd), rowMatch_of_matches hj]

/-- Settles O6, by evaluation of the decoder on the eight words. -/
theorem sampleWordsDecode : Obligations.SampleWordsDecode := by
  unfold Obligations.SampleWordsDecode
  decide

end Sys2Proof.Machine
end

section
/-! SUPPORT, and the proofs of O9, O7, O8, O10, O11, O12, O13 and O14. Which accesses are held (spec/20_memory.md R75 to R79) and what a step is when no
reset is asserted (R84, R85). -/

namespace Sys2Proof.Machine

/-! ### The held accesses -/

theorem eq_offset_of_regAt {off : Fin Config.windowBytes} {r : Reg} (h : regAt off = some r) : off = r.offset := by
  have hall : ∀ off : Fin Config.windowBytes, (regAt off).all fun r => off = r.offset := by decide
  simpa [h] using hall off

/-- R72, R73: a well-formed read stands at its register's own offset. -/
theorem eq_offset_of_readTarget {off : Fin Config.windowBytes} {width : Nat} {r : Reg} (h : readTarget off width = some r) :
    off = r.offset ∧ width = 4 := by
  by_cases hform : width = 4 ∧ off.val % 4 = 0
  · rw [readTarget_of_wellFormed hform] at h
    exact ⟨eq_offset_of_regAt h, hform.1⟩
  · simp [readTarget_of_not_wellFormed hform] at h

theorem heldWhileBusy_command (cw : Word) : (Access.command cw).heldWhileBusy = true := by
  simp [Access.heldWhileBusy, Access.command, Access.wr, writeTarget_offset_of_writable (r := .cmd) rfl]

theorem heldWhileBusy_rd_digest (i : Fin 8) : (Access.rd (.digest i)).heldWhileBusy = true := by
  simp [Access.heldWhileBusy, Access.rd]

theorem heldWhileBusy_read {off : Fin Config.windowBytes} {width : Nat} (h : (Access.read off width).heldWhileBusy = true) :
    ∃ i, Access.read off width = .rd (.digest i) := by
  simp only [Access.heldWhileBusy] at h
  split at h
  · next i hr =>
    obtain ⟨rfl, rfl⟩ := eq_offset_of_readTarget hr
    exact ⟨i, rfl⟩
  · simp at h

theorem heldWhileBusy_write {off : Fin Config.windowBytes} {width : Nat} {cw : Word} (h : (Access.write off width cw).heldWhileBusy = true) :
    Access.write off width cw = .command cw := by
  simp only [Access.heldWhileBusy] at h
  split at h
  · next hw =>
    obtain ⟨rfl, rfl⟩ := writeTarget_cmd hw
    rfl
  · simp at h

/-- Settles O9: the held accesses by their registers, and each register by its offset. -/
theorem heldAccessesExactly : Obligations.HeldAccessesExactly := by
  unfold Obligations.HeldAccessesExactly
  refine fun a => ⟨fun h => ?_, ?_⟩
  · cases a with
    | read off width => exact .inr (heldWhileBusy_read h)
    | write off width cw => exact .inl ⟨cw, heldWhileBusy_write h⟩
  · rintro (⟨cw, rfl⟩ | ⟨i, rfl⟩)
    · exact heldWhileBusy_command cw
    · exact heldWhileBusy_rd_digest i

/-! ### The step when no reset is asserted -/

@[simp] theorem pipelineStep_queue (s : State) : (pipelineStep s).queue = s.queue := by
  rcases pipelineStep_cases s with ⟨-, h⟩ | ⟨-, ht, h⟩ | ⟨-, -, -, h⟩ | ⟨-, -, -, h⟩ <;> simp [h]

@[simp] theorem pipelineStep_reads (s : State) : (pipelineStep s).reads = s.reads := by
  rcases pipelineStep_cases s with ⟨-, h⟩ | ⟨-, ht, h⟩ | ⟨-, -, -, h⟩ | ⟨-, -, -, h⟩ <;> simp [h]

theorem pipelineStep_of_idle {s : State} (hb : s.busy = false) : pipelineStep s = s := by
  simp [pipelineStep, hb]

section
variable {s : State} {a : Access} {rest : List Access} (hr : s.resetIn = false)
include hr

theorem step_of_queue_nil (hq : s.queue = []) : step s = .next (pipelineStep s) := by
  simp [step, advance, hr, hq]

section
variable (hq : s.queue = a :: rest)
include hq

theorem step_of_idle (hb : s.busy = false) : step s = perform a { s with queue := rest } := by
  simp [step, advance, hr, hq, hb]

/-- R85: a held access waits, and the pipeline moves. -/
theorem step_of_held (hb : s.busy = true) (hh : a.heldWhileBusy = true) : step s = .next (pipelineStep s) := by
  simp [step, advance, hr, hq, hb, contend, hh]

theorem step_of_pipeline_turn (hb : s.busy = true) (hh : a.heldWhileBusy = false) (hturn : Config.turn s.draws = .pipeline) :
    step s = .next (pipelineStep (drawn s)) := by
  simp [step, advance, hr, hq, hb, contend, hh, hturn]

theorem step_of_host_turn (hb : s.busy = true) (hh : a.heldWhileBusy = false) (hturn : Config.turn s.draws = .host) :
    step s = perform a { drawn s with queue := rest } := by
  simp [step, advance, hr, hq, hb, contend, hh, hturn]

/-- R84: which of the two agents moves is free. -/
theorem step_of_contended (hb : s.busy = true) (hh : a.heldWhileBusy = false) :
    step s = .next (pipelineStep (drawn s)) ∨ step s = perform a { drawn s with queue := rest } := by
  cases hturn : Config.turn s.draws with
  | host => exact .inr (step_of_host_turn hr hq hb hh hturn)
  | pipeline => exact .inl (step_of_pipeline_turn hr hq hb hh hturn)

end
end

/-- Settles O10. -/
theorem stepPerformsOldestAccess : Obligations.StepPerformsOldestAccess := by
  unfold Obligations.StepPerformsOldestAccess
  exact fun _ _ _ hr hb hq => step_of_idle hr hq hb

/-- Settles O8: the step is the pipeline's, which leaves the host's queue and reads. -/
theorem heldAccessKeepsWaiting : Obligations.HeldAccessKeepsWaiting := by
  unfold Obligations.HeldAccessKeepsWaiting
  exact fun s _ _ hr hb hq hh => ⟨step_of_held hr hq hb hh, (pipelineStep_queue s).trans hq, pipelineStep_reads s⟩

/-- Settles O11. -/
theorem freeInterleaving : Obligations.FreeInterleaving := by
  unfold Obligations.FreeInterleaving
  exact fun _ _ _ hr hb hq hh => step_of_contended hr hq hb hh

/-- Settles O12: the pipeline's step, which on an idle engine is none. -/
theorem stepWithoutAccess : Obligations.StepWithoutAccess := by
  unfold Obligations.StepWithoutAccess
  refine fun s hr hq => ⟨fun hb => ?_, fun _ => step_of_queue_nil hr hq⟩
  rw [step_of_queue_nil hr hq, pipelineStep_of_idle hb]

/-- A CMD write at an idle engine is the acceptance of its word. -/
theorem perform_command (cw : Word) (s : State) : perform (.command cw) s = acceptWord cw s := by
  simp [perform, Access.command, Access.wr, writeTarget_offset_of_writable (r := .cmd) rfl]

/-- Settles O7: the step performs the CMD write, and the word decodes to the command. -/
theorem stepRunsAcceptedCommand : Obligations.StepRunsAcceptedCommand := by
  unfold Obligations.StepRunsAcceptedCommand
  rintro s cw i ⟨hr, hb, hhead⟩ hd
  obtain ⟨rest, hq⟩ := List.head?_eq_some_iff.mp hhead
  rw [step_of_idle hr hq hb, perform_command, acceptWord_ok hd, hq, List.tail_cons]

/-- Settles O13: reset, the pipeline and an access each have a next state. -/
theorem engineNeverStops : Obligations.EngineNeverStops := by
  unfold Obligations.EngineNeverStops
  intro s
  cases hr : s.resetIn with
  | true => exact ⟨_, step_of_resetIn hr⟩
  | false =>
    rcases hq : s.queue with _ | ⟨a, rest⟩
    · exact ⟨_, step_of_queue_nil hr hq⟩
    cases hb : s.busy with
    | false => exact step_of_idle hr hq hb ▸ perform_next a _
    | true =>
      cases hh : a.heldWhileBusy with
      | true => exact ⟨_, step_of_held hr hq hb hh⟩
      | false =>
        rcases step_of_contended hr hq hb hh with h | h
        · exact ⟨_, h⟩
        · exact h ▸ perform_next a _

/-- Settles O14: each register is read at its own offset. -/
theorem readValues : Obligations.ReadValues := by
  unfold Obligations.ReadValues
  exact fun s => ⟨perform_rd .cmd s, perform_rd .status s, perform_rd .dataIn s, perform_rd .bitcntLo s, perform_rd .bitcntHi s,
    fun i => perform_rd (.digest i) s⟩

end Sys2Proof.Machine
end

section
/-! SUPPORT, and the proofs of O40 and O41. Bytes and words in big-endian order (spec/00_scope.md R10; spec/20_memory.md R80 to R82): the lanes of
DATA_IN and the bytes of a digest. -/

namespace Sys2Proof.Machine

/-! ### Lanes of a word -/

theorem be32Bytes_eq_map_dataLane (d : Word) : be32Bytes d = (List.range 4).map (dataLane d) := rfl

theorem dataLane_getLsbD (d : Word) (k i : Nat) : (dataLane d k).getLsbD i = (decide (i < 8) && d.getLsbD (24 - 8 * k + i)) :=
  BitVec.getLsbD_extractLsb' ..

/-- R10: the byte that holds bit `i` of the word, from the last byte up. -/
theorem be32_getLsbD (b0 b1 b2 b3 : Byte) (i : Nat) :
    (be32 b0 b1 b2 b3).getLsbD i =
      if i < 8 then b3.getLsbD i else if i < 16 then b2.getLsbD (i - 8) else if i < 24 then b1.getLsbD (i - 16) else b0.getLsbD (i - 24) := by
  have hpast : ∀ (b : Byte) (n : Nat), 8 ≤ n → b.getLsbD n = false := fun b n => BitVec.getLsbD_of_ge b n
  have hplace : ∀ (b : Byte) {k : Nat}, 8 + k ≤ 32 → (b.setWidth 32 <<< k).getLsbD i = (decide (k ≤ i) && b.getLsbD (i - k)) :=
    fun b _ hk => zeroExtend_shiftLeft_getLsbD b hk i
  have hlast : (b3.setWidth 32).getLsbD i = b3.getLsbD i := by simpa using hplace b3 (k := 0) (by decide)
  simp only [be32, BitVec.getLsbD_or, hlast, hplace b0 (show 8 + 24 ≤ 32 by decide), hplace b1 (show 8 + 16 ≤ 32 by decide),
    hplace b2 (show 8 + 8 ≤ 32 by decide)]
  rcases lt_or_ge i 8 with h8 | h8
  · simp only [h8, if_true]
    simp [show ¬ 24 ≤ i by omega, show ¬ 16 ≤ i by omega, show ¬ 8 ≤ i by omega]
  rcases lt_or_ge i 16 with h16 | h16
  · simp [h8, h16, Nat.not_lt.mpr h8, Nat.not_le.mpr h16, show ¬ 24 ≤ i by omega]
  rcases lt_or_ge i 24 with h24 | h24
  · simp [h16, h24, Nat.not_lt.mpr h8, Nat.not_lt.mpr h16, Nat.not_le.mpr h24, hpast b3 i h8, hpast b2 (i - 8) (by omega)]
  · simp [h24, Nat.not_lt.mpr h8, Nat.not_lt.mpr h16, Nat.not_lt.mpr h24, hpast b3 i h8, hpast b2 (i - 8) (by omega), hpast b1 (i - 16) (by omega)]

theorem be32_dataLanes (d : Word) : be32 (dataLane d 0) (dataLane d 1) (dataLane d 2) (dataLane d 3) = d := by
  refine BitVec.eq_of_getLsbD_eq fun i hi => ?_
  simp only [be32_getLsbD, dataLane_getLsbD]
  split
  · next h8 => simp [h8]
  split
  · simp [show i - 8 < 8 by omega, show 8 + (i - 8) = i by omega]
  split
  · simp [show i - 16 < 8 by omega, show 16 + (i - 16) = i by omega]
  · simp [show i - 24 < 8 by omega, show 24 + (i - 24) = i by omega]

theorem be32Bytes_be32 (b0 b1 b2 b3 : Byte) : be32Bytes (be32 b0 b1 b2 b3) = [b0, b1, b2, b3] := by
  have h0 : (be32 b0 b1 b2 b3).extractLsb' 24 8 = b0 := BitVec.eq_of_getLsbD_eq fun i hi => by
    simp [be32_getLsbD, hi, show ¬ 24 + i < 8 by omega, show ¬ 24 + i < 16 by omega, show ¬ 24 + i < 24 by omega]
  have h1 : (be32 b0 b1 b2 b3).extractLsb' 16 8 = b1 := BitVec.eq_of_getLsbD_eq fun i hi => by
    simp [be32_getLsbD, hi, show ¬ 16 + i < 8 by omega, show ¬ 16 + i < 16 by omega, show 16 + i < 24 by omega]
  have h2 : (be32 b0 b1 b2 b3).extractLsb' 8 8 = b2 := BitVec.eq_of_getLsbD_eq fun i hi => by
    simp [be32_getLsbD, hi, show ¬ 8 + i < 8 by omega, show 8 + i < 16 by omega]
  have h3 : (be32 b0 b1 b2 b3).extractLsb' 0 8 = b3 := BitVec.eq_of_getLsbD_eq fun i hi => by
    simp [be32_getLsbD, hi]
  rw [be32Bytes, h0, h1, h2, h3]

/-- R114: UPDATE takes its bytes from the first lane on. -/
theorem updateBytes_eq_map_dataLane {nb : BitVec 3} (hnb : nb.toNat ≤ 4) (d : Word) :
    updateBytes nb d = (List.range nb.toNat).map (dataLane d) := by
  rw [updateBytes, be32Bytes_eq_map_dataLane, ← List.map_take, List.take_range, Nat.min_eq_left hnb]

/-- Settles O40: a lane is eight bits of the word, and the four lanes are all its bits. -/
theorem dataInLanes : Obligations.DataInLanes := by
  unfold Obligations.DataInLanes
  exact ⟨fun _ d hnb => updateBytes_eq_map_dataLane hnb d, be32_dataLanes, be32Bytes_be32⟩

/-! ### The bytes of a digest -/

/-- Four bytes to a word: byte `j` of word `i` stands at `4 i + j`. -/
theorem flatMap_be32Bytes_getElem? (ws : List Word) (i : Nat) (hi : i < ws.length) {j : Nat} (hj : j < 4) :
    (ws.flatMap be32Bytes)[4 * i + j]? = some (dataLane ws[i] j) := by
  induction ws generalizing i with
  | nil => simp at hi
  | cons x xs ih =>
    cases i with
    | zero => simp [be32Bytes_eq_map_dataLane, hj, List.getElem?_append]
    | succ i =>
      have hskip : 4 * (i + 1) + j = (be32Bytes x).length + (4 * i + j) := by simp only [be32Bytes, List.length_cons, List.length_nil]; omega
      rw [List.flatMap_cons, hskip, List.getElem?_append_right (Nat.le_add_right ..), Nat.add_sub_cancel_left,
        ih i (Nat.lt_of_succ_lt_succ hi), List.getElem_cons_succ]

theorem flatMap_be32Bytes_length (ws : List Word) : (ws.flatMap be32Bytes).length = 4 * ws.length := by
  induction ws with
  | nil => rfl
  | cons x xs ih => rw [List.flatMap_cons, List.length_append, ih, List.length_cons, Nat.mul_succ, Nat.add_comm]; rfl

/-- Settles O41: byte `j` of a word is its lane `j`, and each word takes four bytes. -/
theorem digestByteOrder : Obligations.DigestByteOrder := by
  unfold Obligations.DigestByteOrder
  refine fun x => ⟨?_, fun i hi j hj => ?_⟩
  · rw [digestBytes, flatMap_be32Bytes_length, Vector.length_toList]
  · rw [digestBytes, flatMap_be32Bytes_getElem? _ i (by simpa using hi) hj, Vector.getElem_toList]
    rfl

end Sys2Proof.Machine
end

section
/-! SUPPORT. Closed forms for the bytes of one command (spec/40_commands.md R133): the counter with its carry for any run of bytes, and the state after
a run that completes one block or two. -/

namespace Sys2Proof.Machine

/-! ### The carry -/

@[simp] theorem carries_zero (bc : BitVec 64) : carries bc 0 = false := by
  simpa [carries] using bc.isLt

@[simp] theorem carryMark_zero (bc : BitVec 64) : carryMark bc 0 = [] := by
  simp [carryMark]

/-- One carry at most in 2^64 bits: by the first byte, or by the others after it. -/
theorem carries_succ (bc : BitVec 64) {n : Nat} (hn : 8 * (n + 1) ≤ 2 ^ 64) :
    carries bc (n + 1) = (addByteCarry bc || carries (bc + 8) n) ∧ (addByteCarry bc = true → carries (bc + 8) n = false) := by
  have hlt := bc.isLt
  have hsum : (bc + 8).toNat = (bc.toNat + 8) % 2 ^ 64 := BitVec.toNat_add ..
  simp only [addByteCarry_eq, carries, hsum, decide_eq_true_eq, decide_eq_false_iff_not, ← Bool.decide_or]
  exact ⟨decide_eq_decide.mpr (by omega), by omega⟩

theorem carryMark_succ (bc : BitVec 64) {n : Nat} (hn : 8 * (n + 1) ≤ 2 ^ 64) :
    carryMark bc (n + 1) = (if addByteCarry bc then [.overflow] else []) ++ carryMark (bc + 8) n := by
  obtain ⟨hcarry, hone⟩ := carries_succ bc hn
  cases h : addByteCarry bc
  · rw [carryMark, hcarry, h, Bool.false_or]
    rfl
  · rw [carryMark, carryMark, hcarry, h, hone h]
    rfl

/-- R37: the sum is smaller than what it started from exactly when it carries. -/
theorem toNat_add_lt_of_carries {bc : BitVec 64} {n : Nat} (hn : 8 * n < 2 ^ 64) (h : carries bc n = true) :
    (bc + BitVec.ofNat 64 (8 * n)).toNat < bc.toNat := by
  have hlt := bc.isLt
  have hge : 2 ^ 64 ≤ bc.toNat + 8 * n := of_decide_eq_true h
  rw [BitVec.toNat_add, BitVec.toNat_ofNat]
  omega

theorem mem_carryMark {bc : BitVec 64} {n : Nat} (h : carries bc n = true) : Mark.overflow ∈ carryMark bc n := by
  simp [carryMark, h]

/-! ### The counter, OVF and the marks after a run of bytes -/

theorem absorbByte_ovf (b : Byte) (s : State) : (absorbByte b s).ovf = (s.ovf || addByteCarry s.bitCount) := by
  obtain ⟨-, h⟩ | ⟨-, -, h⟩ | ⟨-, -, h⟩ := absorbByte_cases b s <;> rw [h] <;> rfl

theorem absorbByte_marks (b : Byte) (s : State) :
    (absorbByte b s).marks = s.marks ++ (if addByteCarry s.bitCount then [.overflow] else []) := by
  have hstore : (storeByte b s).marks = s.marks ++ (if addByteCarry s.bitCount then [.overflow] else []) := by
    rw [storeByte_marks]
    split <;> simp
  obtain ⟨-, h⟩ | ⟨-, -, h⟩ | ⟨-, -, h⟩ := absorbByte_cases b s <;> exact h ▸ hstore

theorem absorbBytes_ovf (bs : List Byte) (s : State) (hlen : 8 * bs.length ≤ 2 ^ 64) :
    (absorbBytes bs s).ovf = (s.ovf || carries s.bitCount bs.length) := by
  induction bs generalizing s with
  | nil => simp [absorbBytes]
  | cons b bs ih =>
    rw [List.length_cons] at hlen ⊢
    rw [absorbBytes, ih _ (by omega), absorbByte_ovf, absorbByte_bitCount, (carries_succ _ hlen).1, Bool.or_assoc]

theorem absorbBytes_marks (bs : List Byte) (s : State) (hlen : 8 * bs.length ≤ 2 ^ 64) :
    (absorbBytes bs s).marks = s.marks ++ carryMark s.bitCount bs.length := by
  induction bs generalizing s with
  | nil => simp [absorbBytes]
  | cons b bs ih =>
    rw [List.length_cons] at hlen ⊢
    rw [absorbBytes, ih _ (by omega), absorbByte_marks, absorbByte_bitCount, carryMark_succ _ hlen, List.append_assoc]

theorem absorbBytes_index (bs : List Byte) (s : State) : (absorbBytes bs s).index.toNat = (s.index.toNat + bs.length) % 64 := by
  have hlt := s.bitCount.isLt
  rw [index_toNat, index_toNat, absorbBytes_bitCount, BitVec.toNat_add, BitVec.toNat_ofNat]
  omega

/-! ### Storing past the end of a block -/

/-- Of a run of bytes the block takes those that fit. -/
theorem overlay_append_of_le (buf : Block) (i : Nat) (xs ys : List Byte) (h : 64 ≤ i + xs.length) :
    overlay buf i (xs ++ ys) = overlay buf i xs := by
  refine Vector.ext fun j hj => ?_
  rw [overlay_get _ _ _ _ hj, overlay_get _ _ _ _ hj, List.length_append]
  by_cases hij : i ≤ j
  · rw [if_pos (by omega), if_pos (by omega), List.getD_append _ _ _ _ (by omega)]
  · rw [if_neg (by omega), if_neg (by omega)]

/-- A run that reaches the end of a block is cut at the byte that completes it. -/
theorem split_at_block_end (bs : List Byte) {i : Nat} (hi : i < 64) (h : 64 ≤ i + bs.length) :
    ∃ xs b, bs = xs ++ [b] ++ bs.drop (64 - i) ∧ i + xs.length = 63 := by
  have htake : bs.take (63 - i) ++ [bs[63 - i]] = bs.take (64 - i) := by
    rw [show 64 - i = 63 - i + 1 by omega, List.take_add_one, List.getElem?_eq_getElem (by omega)]
    rfl
  refine ⟨bs.take (63 - i), bs[63 - i], ?_, ?_⟩
  · rw [htake, List.take_append_drop]
  · rw [List.length_take]
    omega

/-! ### A run that completes a block -/

/-- The byte that completes a block on an idle engine issues it. -/
theorem absorbBytes_issues (xs : List Byte) (b : Byte) {s : State} (hb : s.busy = false) (h : s.index.toNat + xs.length = 63) :
    ∃ bc o m, absorbBytes (xs ++ [b]) s = { s with
      buf := overlay s.buf s.index.toNat (xs ++ [b]), bitCount := bc, ovf := o, marks := m
      w := loadBlock (overlay s.buf s.index.toNat (xs ++ [b])) s.w, v := Work.load s.h, t := 0, busy := true } := by
  rw [absorbBytes_to_end xs b s h, completeBlock, if_neg (by simp [hb])]
  exact ⟨_, _, _, rfl⟩

/-- Behind the block in flight a run fills `Buf` from its start; when the run is a whole block, it waits there. -/
theorem absorbBytes_behind (bs : List Byte) {s : State} (hb : s.busy = true) (hi : s.index.toNat = 0) (hlen : bs.length ≤ 64) :
    ∃ bc o m, absorbBytes bs s = { s with
      buf := overlay s.buf 0 bs, bitCount := bc, ovf := o, marks := m, pend := s.pend || decide (bs.length = 64) } := by
  rcases Nat.lt_or_ge bs.length 64 with hlt | hge
  · rw [absorbBytes_within bs s (by omega), hi, decide_eq_false hlt.ne, Bool.or_false]
    exact ⟨_, _, _, rfl⟩
  · obtain ⟨xs, b, hbs, hxs⟩ := split_at_block_end bs (i := s.index.toNat) (by omega) (by omega)
    rw [List.drop_eq_nil_of_le (by omega), List.append_nil] at hbs
    have hwhole : bs.length = 64 := by omega
    rw [decide_eq_true hwhole, Bool.or_true]
    have hrun := absorbBytes_to_end xs b s hxs
    rw [completeBlock, if_pos hb, ← hbs, hi] at hrun
    exact ⟨_, _, _, hrun⟩

/-- A run on an idle engine that completes a block, and a second one when it ends with it. -/
theorem absorbBytes_completes {bs : List Byte} {s : State} (hb : s.busy = false) (hlo : 64 ≤ s.index.toNat + bs.length)
    (hhi : s.index.toNat + bs.length ≤ 128) :
    absorbBytes bs s = { s with
      buf := overlay (overlay s.buf s.index.toNat bs) 0 (bs.drop (64 - s.index.toNat))
      bitCount := s.bitCount + BitVec.ofNat 64 (8 * bs.length)
      ovf := s.ovf || carries s.bitCount bs.length
      marks := s.marks ++ carryMark s.bitCount bs.length
      w := loadBlock (overlay s.buf s.index.toNat bs) s.w
      v := Work.load s.h
      t := 0
      busy := true
      pend := s.pend || decide (s.index.toNat + bs.length = 128) } := by
  have hcount := absorbBytes_bitCount bs s
  have hovf := absorbBytes_ovf bs s (by omega)
  have hmarks := absorbBytes_marks bs s (by omega)
  have hidx := s.index.isLt
  obtain ⟨xs, b, hbs, hxs⟩ := split_at_block_end bs hidx hlo
  have hfirst : overlay s.buf s.index.toNat (xs ++ [b]) = overlay s.buf s.index.toNat bs := by
    rw [hbs]
    exact (overlay_append_of_le _ _ _ _ (by simp only [List.length_append, List.length_singleton]; omega)).symm
  obtain ⟨bc, o, m, h1⟩ := absorbBytes_issues xs b hb hxs
  have hstart : (absorbBytes (xs ++ [b]) s).index.toNat = 0 := by
    rw [absorbBytes_index, List.length_append, List.length_singleton]
    omega
  have hrun : absorbBytes bs s = absorbBytes (bs.drop (64 - s.index.toNat)) (absorbBytes (xs ++ [b]) s) := by
    rw [← absorbBytes_append, ← hbs]
  obtain ⟨bc', o', m', h2⟩ := absorbBytes_behind (bs.drop (64 - s.index.toNat)) (by rw [h1]) hstart (by rw [List.length_drop]; omega)
  have hpend : (bs.drop (64 - s.index.toNat)).length = 64 ↔ s.index.toNat + bs.length = 128 := by
    rw [List.length_drop]
    omega
  rw [hrun, h2, h1] at hcount hovf hmarks ⊢
  subst hcount hovf hmarks
  simp only [hfirst, hpend]

/-- A short run on an idle engine leaves no block waiting that did not wait before. -/
theorem absorbBytes_pend {bs : List Byte} {s : State} (hb : s.busy = false) (hhi : s.index.toNat + bs.length < 128) :
    (absorbBytes bs s).pend = s.pend := by
  rcases Nat.lt_or_ge (s.index.toNat + bs.length) 64 with hlt | hge
  · rw [absorbBytes_within bs s hlt]
  · rw [absorbBytes_completes hb hge hhi.le]
    simp [hhi.ne]

/-! ### Where the bytes are stored -/

theorem absorbByte_get (b : Byte) (s : State) (j : Nat) (hj : j < 64) (h : s.index.toNat ≠ j) : (absorbByte b s).buf[j] = s.buf[j] := by
  have hstore : (storeByte b s).buf[j] = s.buf[j] := by
    simp only [storeByte_buf]
    exact Vector.getElem_set_ne _ _ h
  obtain ⟨-, he⟩ | ⟨-, -, he⟩ | ⟨-, -, he⟩ := absorbByte_cases b s <;> rw [← hstore] <;> simp only [he, issue_buf]

/-- R133: byte `k` of a run goes to place `(INDEX + k) mod 64`. -/
theorem absorbBytes_get (bs : List Byte) (s : State) (j : Nat) (hj : j < 64) (h : ∀ k < bs.length, (s.index.toNat + k) % 64 ≠ j) :
    (absorbBytes bs s).buf[j] = s.buf[j] := by
  induction bs generalizing s with
  | nil => rfl
  | cons b bs ih =>
    have hnext : (absorbByte b s).index.toNat = (s.index.toNat + 1) % 64 := absorbBytes_index [b] s
    have hfirst : s.index.toNat ≠ j := by
      have := h 0 (by simp)
      have := s.index.isLt
      omega
    rw [absorbBytes, ih, absorbByte_get b s j hj hfirst]
    intro k hk
    have := h (k + 1) (by simpa using hk)
    rw [hnext]
    omega

end Sys2Proof.Machine
end

section
/-! SUPPORT, and the proofs of O26, O27, O28, O30 and O33 to O38. What each command does and leaves (spec/40_commands.md R130 to R138), in the cases that
complete no block. -/

namespace Sys2Proof.Machine

/-! ### Acceptance by command -/

theorem exec_update_of_idle {s : State} (hb : s.busy = false) (nb : BitVec 3) : exec (.update nb) s = .next (updateEffect nb s) :=
  accept_idle hb

theorem exec_final_of_idle {s : State} (hb : s.busy = false) : exec .final s = .next (finalEffect s) := accept_idle hb

/-- Settles O26. -/
theorem nopCompletes : Obligations.NopCompletes := by
  unfold Obligations.NopCompletes
  exact fun _ hb => accept_idle hb

/-- Settles O35: every arm is an acceptance. -/
theorem heldCommandHasNoEffect : Obligations.HeldCommandHasNoEffect := by
  unfold Obligations.HeldCommandHasNoEffect
  intro i s hb
  cases i <;> exact accept_busy hb

/-- Settles O34. -/
theorem reservedOpRejected : Obligations.ReservedOpRejected := by
  unfold Obligations.ReservedOpRejected
  exact fun _ hb => ⟨fun _ _ => accept_idle hb, fun _ _ => accept_idle hb⟩

/-- Settles O30: the two checks of UPDATE in their order. -/
theorem updateRejections : Obligations.UpdateRejections := by
  unfold Obligations.UpdateRejections
  refine fun nb s hb => ⟨fun hnb => ?_, fun hnb hspent => ?_⟩ <;> rw [exec_update_of_idle hb]
  · exact congrArg _ (if_pos hnb)
  · rw [updateEffect_of_le (Nat.not_lt.mpr hnb), if_pos hspent]

/-- Settles O33. -/
theorem finalRejected : Obligations.FinalRejected := by
  unfold Obligations.FinalRejected
  intro s hb hspent
  rw [exec_final_of_idle hb, finalEffect, if_pos hspent]

/-! ### INIT -/

theorem initEffect_eq (s : State) : initEffect s = { initWrites s with buf := (initEffect s).buf, draws := (initEffect s).draws } := by
  rcases initEffect_cases s with ⟨-, h⟩ | ⟨-, h⟩
  · rw [h]
  · rw [h]
    rfl

theorem initEffect_of_index_zero {s : State} (h : s.index = 0) : initEffect s = initWrites s := if_pos h

/-- After INIT a second one finds INDEX 0 and every register as it would write it. -/
theorem initEffect_idem (s : State) : initEffect (initEffect s) = initEffect s := by
  rw [initEffect_of_index_zero (initEffect_index s), initEffect_eq]
  rfl

/-- Settles O27: the effect of INIT is its writes, but for the bytes it leaves unspecified. -/
theorem initCompletes : Obligations.InitCompletes := by
  unfold Obligations.InitCompletes
  refine fun s hb => ⟨initEffect s, exec_init_of_idle hb, ?_, initEffect_eq s, fun hindex => ?_⟩
  · rw [exec_init_of_idle ((initEffect_busy s).trans hb), initEffect_idem]
  · rw [initEffect_of_index_zero hindex]
    exact ⟨rfl, rfl⟩

/-- Settles O38: the frame of each command that absorbs nothing, from what its acceptance can do. -/
theorem nonAbsorbingFrames : Obligations.NonAbsorbingFrames := by
  unfold Obligations.NonAbsorbingFrames
  intro i s t h
  rcases exec_cases h with ⟨-, rfl⟩ | ⟨hb, ⟨rfl, rfl⟩ | ⟨rfl, rfl⟩ | ⟨nb, rfl, -⟩ | ⟨rfl, -⟩ | ⟨hres, rfl⟩⟩
  · exact ⟨fun _ => rfl, fun _ => ⟨rfl, rfl, rfl, rfl, rfl, rfl, rfl, rfl, rfl, rfl, fun _ => ⟨rfl, rfl⟩⟩, fun _ => rfl⟩
  · simp
  · refine ⟨by simp, fun _ => ⟨initEffect_dataIn s, initEffect_busy s, initEffect_pend s, initEffect_t s, initEffect_w s, initEffect_v s,
      initEffect_queue s, initEffect_reads s, initEffect_marks s, initEffect_resetIn s, fun hcase => ?_⟩, by simp⟩
    rw [initEffect_of_index_zero (hcase.resolve_left (by simp [hb]))]
    exact ⟨rfl, rfl⟩
  · simp
  · simp
  · refine ⟨?_, ?_, fun _ => rfl⟩ <;> rintro rfl <;> simp at hres

/-! ### UPDATE -/

theorem updateBytes_getD {nb : BitVec 3} (hnb : nb.toNat ≤ 4) (d : Word) {k : Nat} (hk : k < nb.toNat) :
    (updateBytes nb d).getD k 0 = dataLane d k := by
  simp [updateBytes_eq_map_dataLane hnb, hk]

theorem updateBytes_eq_nil_iff {nb : BitVec 3} (hnb : nb.toNat ≤ 4) (d : Word) : updateBytes nb d = [] ↔ nb = 0 := by
  rw [← List.length_eq_zero_iff, updateBytes_length nb d hnb]
  exact ⟨fun h => BitVec.eq_of_toNat_eq h, fun h => h ▸ rfl⟩

theorem absorb_eq (bs : List Byte) (s : State) :
    absorb bs s = { absorbBytes bs s with buf := (absorb bs s).buf, draws := (absorb bs s).draws } := by
  rcases absorb_cases bs s with ⟨rfl, h⟩ | ⟨-, h⟩ <;> rw [h] <;> rfl

section
variable {nb : BitVec 3} {s : State} (hb : s.busy = false) (hs : s.spent = false) (hnb : nb.toNat ≤ 4)
include hb hs hnb

/-- R134: an UPDATE that is not rejected absorbs the first lanes of DATA_IN. -/
theorem exec_update_absorbs : exec (.update nb) s = .next (absorb (updateBytes nb s.dataIn) s) := by
  rw [exec_update_of_idle hb, updateEffect_of_le (Nat.not_lt.mpr hnb), hs, if_neg Bool.false_ne_true]

end

/-- Settles O28: the bytes of a run that completes no block, those below the new INDEX being kept. -/
theorem updateWithinBlock : Obligations.UpdateWithinBlock := by
  unfold Obligations.UpdateWithinBlock
  intro nb s hb hs hnb hlt
  have hlen := updateBytes_length nb s.dataIn hnb
  have hrun := absorbBytes_within (updateBytes nb s.dataIn) s (by omega)
  have hindex := absorbBytes_index (updateBytes nb s.dataIn) s
  refine ⟨absorb (updateBytes nb s.dataIn) s, exec_update_absorbs hb hs hnb, fun j hj => ?_, fun h0 => ?_, ?_⟩
  · have hkeep : j.val < (absorbBytes (updateBytes nb s.dataIn) s).index.toNat := by omega
    have hbuf : (absorb (updateBytes nb s.dataIn) s).buf[j] = (overlay s.buf s.index.toNat (updateBytes nb s.dataIn))[j.val] := by
      refine (absorb_get _ _ _ j.isLt (.inl hkeep)).trans ?_
      simp only [hrun]
    rw [hbuf, overlay_get _ _ _ _ j.isLt]
    by_cases hold : j.val < s.index.toNat
    · rw [if_neg (by omega), if_pos hold]
      rfl
    · rw [if_pos (by omega), if_neg hold, updateBytes_getD hnb _ (by omega)]
  · rw [(updateBytes_eq_nil_iff hnb _).mpr h0]
    rfl
  · rw [absorb_eq, hrun, hlen]

/-- What a rejected, a held and an absorbing UPDATE are. -/
theorem exec_update_cases {nb : BitVec 3} {s t : State} (h : exec (.update nb) s = .next t) :
    (s.busy = true ∧ t = s)
    ∨ (s.busy = false ∧ (4 < nb.toNat ∨ s.spent = true) ∧ ∃ c, t = recordError c s)
    ∨ (s.busy = false ∧ nb.toNat ≤ 4 ∧ s.spent = false ∧ t = absorb (updateBytes nb s.dataIn) s) := by
  rcases accept_cases h with ⟨hb, rfl⟩ | ⟨hb, rfl⟩
  · exact .inl ⟨hb, rfl⟩
  · rcases updateEffect_cases nb s with ⟨hnb, he⟩ | ⟨-, hs, he⟩ | ⟨hnb, hs, he⟩
    · exact .inr (.inl ⟨hb, .inl hnb, _, he⟩)
    · exact .inr (.inl ⟨hb, .inr hs, _, he⟩)
    · exact .inr (.inr ⟨hb, hnb, hs, he⟩)

/-- Settles O36: held and rejected UPDATEs leave the engine, an absorbing one stores only to the places of its bytes. -/
theorem updateFrame : Obligations.UpdateFrame := by
  unfold Obligations.UpdateFrame
  intro nb s t h
  rcases exec_update_cases h with ⟨-, rfl⟩ | ⟨-, hrej, c, rfl⟩ | ⟨hb, hnb, hs, rfl⟩
  · simp
  · refine ⟨rfl, rfl, rfl, rfl, rfl, rfl, rfl, fun hnb hs => ?_, fun _ => ⟨rfl, rfl, rfl, rfl, rfl⟩, fun _ => ⟨rfl, rfl⟩,
      fun _ _ _ => rfl⟩
    simp [hs, Nat.not_lt.mpr hnb] at hrej
  · have hlen := updateBytes_length nb s.dataIn hnb
    have hidx := s.index.isLt
    have hframe := absorb_frame (updateBytes nb s.dataIn) s
    have hpend : (absorb (updateBytes nb s.dataIn) s).pend = s.pend := by
      rw [absorb_pend, absorbBytes_pend hb (by omega)]
    refine ⟨hframe.h, hframe.dataIn, hframe.spent, hpend, hframe.queue, hframe.reads, hframe.resetIn, fun _ _ => ⟨hframe.err, hframe.ecause⟩,
      fun hlt => ?_, fun hnone => ?_, fun j hj hplace => ?_⟩
    · have hrun := absorbBytes_within (updateBytes nb s.dataIn) s (by omega)
      simp [hrun]
    · obtain rfl : nb = 0 := by simpa [hb, hs, Nat.not_lt.mpr hnb] using hnone
      exact ⟨rfl, rfl⟩
    · have hkept := absorb_get _ s j.val j.isLt (.inl (index_congr (absorb_bitCount (updateBytes nb s.dataIn) s) ▸ hj))
      exact hkept.trans (absorbBytes_get _ s j.val j.isLt (by rwa [hlen]))

/-! ### FINAL -/

/-- R138: the bytes of FINAL fill whole blocks, one or two. -/
theorem index_add_finalBytes_length (s : State) :
    s.index.toNat + (finalBytes s.bitCount).length = if s.index.toNat < 56 then 64 else 128 := by
  rw [finalBytes_length]
  exact index_add_padLen s.index.isLt

theorem finalBytes_length_le (l : BitVec 64) : (finalBytes l).length ≤ 72 := by
  have := padLen_bounds (indexOf l).isLt
  rw [finalBytes_length]
  omega

theorem exec_final_absorbs {s : State} (hb : s.busy = false) (hs : s.spent = false) :
    exec .final s = .next (absorb (finalBytes s.bitCount) { s with spent := true }) := by
  rw [exec_final_of_idle hb, finalEffect, hs, if_neg Bool.false_ne_true]

/-- After FINAL the byte count is a multiple of 64. -/
theorem absorb_finalBytes_index (s : State) : (absorb (finalBytes s.bitCount) { s with spent := true }).index = 0 := by
  have hsum := index_add_finalBytes_length s
  rw [index_congr (absorb_bitCount _ _)]
  refine BitVec.eq_of_toNat_eq ?_
  rw [absorbBytes_index]
  show (s.index.toNat + (finalBytes s.bitCount).length) % 64 = 0
  rw [hsum]
  split <;> rfl

/-- Settles O37: a held or rejected FINAL leaves the engine, an absorbing one ends at a block's end, with none waiting when it is one block. -/
theorem finalFrame : Obligations.FinalFrame := by
  unfold Obligations.FinalFrame
  intro s t h
  rcases accept_cases h with ⟨hb, rfl⟩ | ⟨hb, rfl⟩
  · simp [hb]
  rcases finalEffect_cases s with ⟨hs, he⟩ | ⟨hs, he⟩ <;> rw [he]
  · simp [hs]
  · have hframe := absorb_frame (finalBytes s.bitCount) { s with spent := true }
    refine ⟨hframe.h, hframe.dataIn, hframe.queue, hframe.reads, hframe.resetIn, fun _ => ⟨hframe.err, hframe.ecause⟩, ?_, fun hlt => ?_,
      fun _ _ => absorb_finalBytes_index s⟩
    · simp [hb, hs]
    · have hsum := index_add_finalBytes_length s
      rw [if_pos hlt] at hsum
      rw [absorb_pend]
      exact absorbBytes_pend (s := { s with spent := true }) hb (show s.index.toNat + _ < 128 by omega)

end Sys2Proof.Machine
end

section
/-! The proofs of O29, O31 and O32. The commands that complete a block (spec/40_commands.md R134, R138 to R140). -/

namespace Sys2Proof.Machine

/-- Settles O29: the run completes one block, and its last bytes are the first of the next. -/
theorem updateCompletesBlock : Obligations.UpdateCompletesBlock := by
  unfold Obligations.UpdateCompletesBlock
  intro nb s hb hs hnb hge full
  have hlen := updateBytes_length nb s.dataIn hnb
  have hidx := s.index.isLt
  have hrun := absorbBytes_completes hb (bs := updateBytes nb s.dataIn) (by omega) (by omega)
  have hindex := absorbBytes_index (updateBytes nb s.dataIn) s
  have hfull : overlay s.buf s.index.toNat (updateBytes nb s.dataIn) = full := by
    refine Vector.ext fun j hj => ?_
    rw [overlay_get _ _ _ _ hj, Vector.getElem_ofFn]
    by_cases hold : j < s.index.toNat
    · rw [if_neg (by omega), if_pos hold]
      rfl
    · rw [if_pos (by omega), if_neg hold, updateBytes_getD hnb _ (by omega)]
  have hpend : s.index.toNat + (updateBytes nb s.dataIn).length ≠ 128 := by omega
  refine ⟨absorb (updateBytes nb s.dataIn) s, exec_update_absorbs hb hs hnb, fun j hj => ?_, ?_⟩
  · have hkeep : j.val < (absorbBytes (updateBytes nb s.dataIn) s).index.toNat := by omega
    refine (absorb_get _ _ _ j.isLt (.inl hkeep)).trans ?_
    simp only [hrun]
    rw [overlay_get _ _ _ _ j.isLt, if_pos (by rw [List.length_drop]; omega)]
    rw [List.getD_eq_getElem?_getD, List.getElem?_drop, ← List.getD_eq_getElem?_getD, updateBytes_getD hnb _ (by omega), Nat.sub_zero]
  · rw [absorb_eq, hrun, hfull, decide_eq_false hpend, hlen, Bool.or_false]

/-! ### The bytes of FINAL in their places -/

theorem be64Bytes_eq_map_lengthByte (l : BitVec 64) : be64Bytes l = (List.range 8).map (lengthByte l) := by
  have hsub : ∀ a b, b + 8 ≤ 32 → (l.extractLsb' a 32).extractLsb' b 8 = l.extractLsb' (a + b) 8 := fun a b hb =>
    BitVec.eq_of_getLsbD_eq fun i hi => by simp [hi, show b + i < 32 by omega, Nat.add_assoc]
  simp only [be64Bytes, be32Bytes, hsub _ 24 (by decide), hsub _ 16 (by decide), hsub _ 8 (by decide), hsub _ 0 (by decide)]
  rfl

/-- R138: the marker, the zeros up to PadLen, and the length. -/
theorem finalBytes_getD (l : BitVec 64) {k : Nat} (hk : k < (finalBytes l).length) :
    (finalBytes l).getD k 0 =
      if k = 0 then 0x80 else if k < padLen (indexOf l).toNat then 0x00 else lengthByte l (k - padLen (indexOf l).toNat) := by
  have hpad := padLen_bounds (indexOf l).isLt
  rw [finalBytes_length] at hk
  cases k with
  | zero => rfl
  | succ k =>
    rw [if_neg (Nat.succ_ne_zero k), finalBytes, List.append_assoc, List.singleton_append, List.getD_cons_succ]
    split
    · rw [List.getD_append _ _ _ _ (by rw [List.length_replicate]; omega), List.getD_replicate _ (by omega)]
    · have hplace : k - (padLen (indexOf l).toNat - 1) = k + 1 - padLen (indexOf l).toNat := by omega
      rw [List.getD_append_right _ _ _ _ (by rw [List.length_replicate]; omega), List.length_replicate, be64Bytes_eq_map_lengthByte, hplace]
      simp [show k + 1 - padLen (indexOf l).toNat < 8 by omega]

/-- The block that FINAL completes first, byte by byte. -/
theorem overlay_finalBytes_get (s : State) {j : Nat} (hj : j < 64) :
    (overlay s.buf s.index.toNat (finalBytes s.bitCount))[j] =
      if j < s.index.toNat then s.buf[j]
      else if j = s.index.toNat then 0x80
      else if j < s.index.toNat + padLen s.index.toNat then 0x00
      else lengthByte s.bitCount (j - (s.index.toNat + padLen s.index.toNat)) := by
  have hend : 64 ≤ s.index.toNat + (finalBytes s.bitCount).length := by
    rw [index_add_finalBytes_length]
    split <;> decide
  rw [overlay_get _ _ _ _ hj]
  by_cases hold : j < s.index.toNat
  · rw [if_neg (by omega), if_pos hold]
  · have hfirst : j - s.index.toNat = 0 ↔ j = s.index.toNat := by omega
    have hzeros : j - s.index.toNat < padLen s.index.toNat ↔ j < s.index.toNat + padLen s.index.toNat := by omega
    rw [if_pos (by omega), if_neg hold, finalBytes_getD _ (by omega)]
    exact if_congr hfirst rfl (if_congr hzeros rfl (by rw [Nat.sub_add_eq]; rfl))

/-- What FINAL's bytes make of an idle engine: block A in the schedule, and block B, if there is one, waiting. -/
theorem absorbBytes_finalBytes {s : State} (hb : s.busy = false) :
    absorbBytes (finalBytes s.bitCount) { s with spent := true } = { s with
      spent := true
      buf := overlay (overlay s.buf s.index.toNat (finalBytes s.bitCount)) 0 ((finalBytes s.bitCount).drop (64 - s.index.toNat))
      bitCount := s.bitCount + BitVec.ofNat 64 (8 * (finalBytes s.bitCount).length)
      ovf := s.ovf || carries s.bitCount (finalBytes s.bitCount).length
      marks := s.marks ++ carryMark s.bitCount (finalBytes s.bitCount).length
      w := loadBlock (overlay s.buf s.index.toNat (finalBytes s.bitCount)) s.w
      v := Work.load s.h
      t := 0
      busy := true
      pend := s.pend || decide (s.index.toNat + (finalBytes s.bitCount).length = 128) } := by
  have hsum := index_add_finalBytes_length s
  have hlo : 64 ≤ s.index.toNat + (finalBytes s.bitCount).length := by rw [hsum]; split <;> decide
  have hhi : s.index.toNat + (finalBytes s.bitCount).length ≤ 128 := by rw [hsum]; split <;> decide
  exact absorbBytes_completes (s := { s with spent := true }) hb hlo hhi

/-- Settles O31: the marker, the zeros and the length end the one block. -/
theorem finalOneBlock : Obligations.FinalOneBlock := by
  unfold Obligations.FinalOneBlock
  intro s hb hs hlt full
  have hsum := index_add_finalBytes_length s
  rw [if_pos hlt] at hsum
  have hlen : (finalBytes s.bitCount).length = 64 - s.index.toNat := by omega
  have hpad : s.index.toNat + padLen s.index.toNat = 56 := by rw [padLen_of_lt hlt]; omega
  have hfull : overlay s.buf s.index.toNat (finalBytes s.bitCount) = full := by
    refine Vector.ext fun j hj => ?_
    rw [overlay_finalBytes_get s hj, Vector.getElem_ofFn, hpad]
    rfl
  have hpend : s.index.toNat + (finalBytes s.bitCount).length ≠ 128 := by omega
  refine ⟨absorb (finalBytes s.bitCount) { s with spent := true }, exec_final_absorbs hb hs, ?_⟩
  rw [absorb_eq, absorbBytes_finalBytes hb, hfull, decide_eq_false hpend, hlen, Bool.or_false]

/-- Settles O32: the zeros run to the end of block A, and block B is more zeros and the length. -/
theorem finalTwoBlocks : Obligations.FinalTwoBlocks := by
  unfold Obligations.FinalTwoBlocks
  intro s hb hs hge blockA
  have hidx := s.index.isLt
  have hsum := index_add_finalBytes_length s
  rw [if_neg (Nat.not_lt.mpr hge)] at hsum
  have hlen : (finalBytes s.bitCount).length = 128 - s.index.toNat := by omega
  have hpad : padLen s.index.toNat = 120 - s.index.toNat := padLen_of_le hge
  have hA : overlay s.buf s.index.toNat (finalBytes s.bitCount) = blockA := by
    refine Vector.ext fun j hj => ?_
    have hzero : j < s.index.toNat + padLen s.index.toNat := by omega
    rw [overlay_finalBytes_get s hj, Vector.getElem_ofFn, if_pos hzero]
    rfl
  have hB : overlay blockA 0 ((finalBytes s.bitCount).drop (64 - s.index.toNat))
      = Vector.ofFn fun j : Fin 64 => if j.val < 56 then 0x00 else lengthByte s.bitCount (j.val - 56) := by
    refine Vector.ext fun j hj => ?_
    have hpadOf : padLen (indexOf s.bitCount).toNat = 120 - s.index.toNat := hpad
    have hzeros : 64 - s.index.toNat + j < 120 - s.index.toNat ↔ j < 56 := by omega
    have hplace : 64 - s.index.toNat + j - (120 - s.index.toNat) = j - 56 := by omega
    rw [overlay_get _ _ _ _ hj, if_pos (by rw [List.length_drop]; omega), Nat.sub_zero, List.getD_eq_getElem?_getD, List.getElem?_drop,
      ← List.getD_eq_getElem?_getD, finalBytes_getD _ (by omega), if_neg (by omega), Vector.getElem_ofFn, hpadOf, hplace]
    exact if_congr hzeros rfl rfl
  have hne : finalBytes s.bitCount ≠ [] := List.cons_ne_nil _ _
  rw [exec_final_absorbs hb hs, absorb, if_neg hne, absorbBytes_finalBytes hb, hA, hB, decide_eq_true hsum, hlen, Bool.or_true]
  rfl

end Sys2Proof.Machine
end

section
/-! SUPPORT, and the proofs of O19 to O25. What the pipeline never writes (spec/42_pipeline.md R198), and which steps write each element of the
state (spec/10_state.md R31 to R38). -/

namespace Sys2Proof.Machine

/-! ### What the pipeline leaves -/

section
variable (s : State)

@[simp] theorem pipelineStep_bitCount : (pipelineStep s).bitCount = s.bitCount := by
  rcases pipelineStep_cases s with ⟨-, h⟩ | ⟨-, ht, h⟩ | ⟨-, -, -, h⟩ | ⟨-, -, -, h⟩ <;> simp [h]

@[simp] theorem pipelineStep_dataIn : (pipelineStep s).dataIn = s.dataIn := by
  rcases pipelineStep_cases s with ⟨-, h⟩ | ⟨-, ht, h⟩ | ⟨-, -, -, h⟩ | ⟨-, -, -, h⟩ <;> simp [h]

@[simp] theorem pipelineStep_spent : (pipelineStep s).spent = s.spent := by
  rcases pipelineStep_cases s with ⟨-, h⟩ | ⟨-, ht, h⟩ | ⟨-, -, -, h⟩ | ⟨-, -, -, h⟩ <;> simp [h]

@[simp] theorem pipelineStep_ovf : (pipelineStep s).ovf = s.ovf := by
  rcases pipelineStep_cases s with ⟨-, h⟩ | ⟨-, ht, h⟩ | ⟨-, -, -, h⟩ | ⟨-, -, -, h⟩ <;> simp [h]

@[simp] theorem pipelineStep_marks : (pipelineStep s).marks = s.marks := by
  rcases pipelineStep_cases s with ⟨-, h⟩ | ⟨-, ht, h⟩ | ⟨-, -, -, h⟩ | ⟨-, -, -, h⟩ <;> simp [h]

@[simp] theorem pipelineStep_resetIn : (pipelineStep s).resetIn = s.resetIn := by
  rcases pipelineStep_cases s with ⟨-, h⟩ | ⟨-, ht, h⟩ | ⟨-, -, -, h⟩ | ⟨-, -, -, h⟩ <;> simp [h]

@[simp] theorem pipelineStep_index : (pipelineStep s).index = s.index := index_congr (pipelineStep_bitCount s)

end

/-- Only the issue of a waiting block touches `Buf`. -/
theorem pipelineStep_buf {s : State} (h : s.busy = false ∨ s.t ≠ 64 ∨ s.pend = false) : (pipelineStep s).buf = s.buf := by
  rcases pipelineStep_cases s with ⟨-, he⟩ | ⟨-, ht, he⟩ | ⟨hb, ht, hp, -⟩ | ⟨-, -, -, he⟩
  · rw [he]
  · rw [he, roundStep_buf]
  · have ht64 : s.t = 64 := Fin.ext ht
    simp [hb, ht64, hp] at h
  · rw [he, forgetPipeline_buf]

/-- Settles O25: the fields by the cases of the step, the meaningful bytes by INDEX, which stays. -/
theorem pipelineFootprint : Obligations.PipelineFootprint := by
  unfold Obligations.PipelineFootprint
  exact fun s => ⟨pipelineStep_bitCount s, pipelineStep_dataIn s, pipelineStep_spent s, pipelineStep_ovf s, pipelineStep_err s,
    pipelineStep_ecause s, pipelineStep_queue s, pipelineStep_reads s, pipelineStep_marks s, pipelineStep_resetIn s, pipelineStep_buf,
    fun j hj => pipelineStep_get s j j.isLt (.inl ((pipelineStep_index s).symm ▸ hj))⟩

/-- R193: a block that waits after a step waited before it. -/
theorem pend_of_pipelineStep_pend {s : State} (h : (pipelineStep s).pend = true) : s.pend = true := by
  rcases pipelineStep_cases s with ⟨-, he⟩ | ⟨-, ht, he⟩ | ⟨-, -, hp, -⟩ | ⟨-, -, -, he⟩
  · rwa [he] at h
  · rwa [he] at h
  · exact hp
  · rwa [he] at h

/-- R193: the add step takes a waiting block before it goes idle. -/
theorem pipelineStep_busy_of_pend {s : State} (h : s.pend = true → s.busy = true) :
    (pipelineStep s).pend = true → (pipelineStep s).busy = true := by
  rcases pipelineStep_cases s with ⟨-, he⟩ | ⟨-, ht, he⟩ | ⟨-, -, -, he⟩ | ⟨-, -, hp, he⟩ <;> rw [he]
  · exact h
  · exact h
  · exact fun _ => rfl
  · exact fun hp' => absurd (hp.symm.trans hp') Bool.false_ne_true

/-- R31: the pipeline writes the state array in the add step alone. -/
theorem pipelineStep_h (s : State) :
    (pipelineStep s).h = s.h ∨ ((pipelineStep s).h = finalAdd s.h s.v ∧ s.busy = true ∧ s.t = 64) := by
  rcases pipelineStep_cases s with ⟨-, h⟩ | ⟨-, ht, h⟩ | ⟨hb, ht, -, h⟩ | ⟨hb, ht, -, h⟩ <;> rw [h]
  · exact .inl rfl
  · exact .inl rfl
  · exact .inr ⟨rfl, hb, Fin.ext ht⟩
  · exact .inr ⟨rfl, hb, Fin.ext ht⟩

/-! ### A simple access -/

/-- What an access that runs no command can write: the error record, DATA_IN and the model's own record of the host. -/
structure AccessFrame (s t : State) : Prop where
  h : t.h = s.h
  bitCount : t.bitCount = s.bitCount
  buf : t.buf = s.buf
  spent : t.spent = s.spent
  ovf : t.ovf = s.ovf
  marks : s.marks <+: t.marks
  dataIn : t.dataIn = s.dataIn ∨ s.queue.head? = some (.wr .dataIn t.dataIn)

/-- What a step can be, with its frame for the accesses that run no command. -/
theorem step_writers {s t : State} (h : step s = .next t) :
    (s.resetIn = true ∧ t = resetEvent s)
    ∨ (∃ u, (u = s ∨ u = drawn s) ∧ t = pipelineStep u)
    ∨ (s.resetIn = false ∧ AccessFrame s t)
    ∨ (∃ rest, s.acceptsNext (encode .init) ∧ t = initEffect { s with queue := rest })
    ∨ (∃ (rest : List Access) (nb : BitVec 3), s.acceptsNext (encode (.update nb)) ∧ nb.toNat ≤ 4 ∧ s.spent = false
        ∧ t = absorb (updateBytes nb s.dataIn) { s with queue := rest })
    ∨ (∃ rest, s.acceptsNext (encode .final) ∧ s.spent = false
        ∧ t = absorb (finalBytes s.bitCount) { s with queue := rest, spent := true }) := by
  rcases step_effects h with h | ⟨-, rfl | rfl⟩ | ⟨u, rest, hr, hu, haccess⟩ | ⟨rest, hacc, rfl⟩ | ⟨rest, nb, hacc, hnb, hs, rfl⟩
    | ⟨rest, hacc, hs, rfl⟩
  · exact .inl h
  · exact .inr (.inl ⟨s, .inl rfl, rfl⟩)
  · exact .inr (.inl ⟨_, .inr rfl, rfl⟩)
  · refine .inr (.inr (.inl ⟨hr, ?_⟩))
    rcases hu with rfl | rfl <;> rcases haccess with ⟨c, rfl⟩ | ⟨c, rfl⟩ | ⟨x, rfl⟩ | ⟨x, hq, rfl⟩ | rfl <;> constructor <;> simp [*]
  · exact .inr (.inr (.inr (.inl ⟨rest, acceptsNext_of_accepting hacc, rfl⟩)))
  · exact .inr (.inr (.inr (.inr (.inl ⟨rest, nb, acceptsNext_of_accepting hacc, hnb, hs, rfl⟩))))
  · exact .inr (.inr (.inr (.inr (.inr ⟨rest, acceptsNext_of_accepting hacc, hs, rfl⟩))))

/-! ### Who writes each element -/

/-- Settles O19: of the writers, the pipeline writes it in its add step, reset and INIT write IV. -/
theorem stateArrayWriters : Obligations.StateArrayWriters := by
  unfold Obligations.StateArrayWriters
  intro s t h
  rcases step_writers h with ⟨hr, rfl⟩ | ⟨u, hu, rfl⟩ | ⟨-, hframe⟩ | ⟨rest, hacc, rfl⟩
    | ⟨rest, nb, -, -, -, rfl⟩ | ⟨rest, -, -, rfl⟩
  · exact .inr (.inl ⟨rfl, .inl hr⟩)
  · have hpipe := pipelineStep_h u
    rcases hu with rfl | rfl
    · exact hpipe.imp_right .inr
    · exact hpipe.imp_right .inr
  · exact .inl hframe.h
  · exact .inr (.inl ⟨initEffect_h _, .inr hacc⟩)
  · exact .inl (absorb_frame _ _).h
  · exact .inl (absorb_frame _ _).h

/-- Settles O20: a run of bytes adds 8 bits for each, and the two commands say how many there are. -/
theorem bitCountWriters : Obligations.BitCountWriters := by
  unfold Obligations.BitCountWriters
  intro s t h
  rcases step_writers h with ⟨hr, rfl⟩ | ⟨u, hu, rfl⟩ | ⟨-, hframe⟩ | ⟨rest, hacc, rfl⟩
    | ⟨rest, nb, hacc, hnb, hs, rfl⟩ | ⟨rest, hacc, hs, rfl⟩
  · exact .inr (.inl ⟨rfl, .inl hr⟩)
  · rw [pipelineStep_bitCount]
    rcases hu with rfl | rfl <;> exact .inl rfl
  · exact .inl hframe.bitCount
  · exact .inr (.inl ⟨initEffect_bitCount _, .inr hacc⟩)
  · refine .inr (.inr ⟨hs, .inl ⟨nb, hnb, hacc, ?_⟩⟩)
    rw [absorb_bitCount, absorbBytes_bitCount, updateBytes_length nb _ hnb]
  · refine .inr (.inr ⟨hs, .inr ⟨hacc, ?_⟩⟩)
    rw [absorb_bitCount, absorbBytes_bitCount, finalBytes_length]
    rfl

/-- Settles O21: no command writes DATA_IN, and of the other accesses only the write to it does. -/
theorem dataInWriters : Obligations.DataInWriters := by
  unfold Obligations.DataInWriters
  intro s t h
  rcases step_writers h with ⟨hr, rfl⟩ | ⟨u, hu, rfl⟩ | ⟨hr, hframe⟩ | ⟨rest, hacc, rfl⟩
    | ⟨rest, nb, -, -, -, rfl⟩ | ⟨rest, -, -, rfl⟩
  · exact .inr (.inl ⟨rfl, hr⟩)
  · rw [pipelineStep_dataIn]
    rcases hu with rfl | rfl <;> exact .inl rfl
  · exact hframe.dataIn.imp_right fun hq => .inr ⟨hr, hq⟩
  · exact .inl (initEffect_dataIn _)
  · exact .inl (absorb_frame _ _).dataIn
  · exact .inl (absorb_frame _ _).dataIn

/-- INIT leaves no meaningful byte but those of a block that waits. -/
theorem initEffect_get (s : State) (j : Nat) (hj : j < 64) (h : j < (initEffect s).index.toNat ∨ (initEffect s).pend = true) :
    (initEffect s).buf[j] = s.buf[j] := by
  rcases initEffect_cases s with ⟨-, he⟩ | ⟨-, he⟩ <;> rewrite [he] at h ⊢
  · rfl
  · exact forgetTail_get (initWrites s) j hj h

/-- Settles O22: the pipeline and INIT keep the meaningful bytes, reset leaves none, and the other writers are the two commands. -/
theorem bufferWriters : Obligations.BufferWriters := by
  unfold Obligations.BufferWriters
  intro s t h
  rcases step_writers h with ⟨-, rfl⟩ | ⟨u, hu, rfl⟩ | ⟨-, hframe⟩ | ⟨rest, -, rfl⟩
    | ⟨rest, nb, hacc, hnb, hs, -⟩ | ⟨rest, hacc, hs, -⟩
  · refine .inl fun j hj => ?_
    simp at hj
  · refine .inl fun j hj => (pipelineStep_get u j j.isLt hj).trans ?_
    rcases hu with rfl | rfl <;> rfl
  · exact .inl fun j _ => congrArg (·[j]) hframe.buf
  · exact .inl fun j hj => initEffect_get { s with queue := rest } j j.isLt hj
  · exact .inr ⟨hs, .inr ⟨nb, hnb, hacc⟩⟩
  · exact .inr ⟨hs, .inl hacc⟩

/-- A run of bytes raises OVF only with a carry, which leaves a smaller count and a mark. -/
theorem absorb_ovf_rises {bs : List Byte} {s : State} (hlen : bs.length ≤ 72) (hs : s.ovf = false) (ht : (absorb bs s).ovf = true) :
    (absorb bs s).bitCount.toNat < s.bitCount.toNat ∧ Mark.overflow ∈ (absorb bs s).marks := by
  have hcarry : carries s.bitCount bs.length = true := by
    simpa [absorbBytes_ovf bs s (by omega), hs] using ht
  rw [absorb_bitCount, absorbBytes_bitCount, absorb_marks, absorbBytes_marks bs s (by omega)]
  exact ⟨toNat_add_lt_of_carries (by omega) hcarry, List.mem_append_right _ (mem_carryMark hcarry)⟩

theorem ovf_of_absorb_ovf {bs : List Byte} {s : State} (hlen : bs.length ≤ 72) (ht : (absorb bs s).ovf = false) : s.ovf = false := by
  rw [absorb_ovf, absorbBytes_ovf bs s (by omega)] at ht
  exact (Bool.or_eq_false_iff.mp ht).1

/-- Settles O23: of the writers, FINAL sets SPENT, a run of bytes sets OVF by a carry, and reset and INIT clear both. -/
theorem spentAndOvfWriters : Obligations.SpentAndOvfWriters := by
  unfold Obligations.SpentAndOvfWriters
  intro s t h
  rcases step_writers h with ⟨hr, rfl⟩ | ⟨u, hu, rfl⟩ | ⟨-, hframe⟩ | ⟨rest, hacc, rfl⟩
    | ⟨rest, nb, -, hnb, hs, rfl⟩ | ⟨rest, hacc, hs, rfl⟩
  · simp [hr]
  · rcases hu with rfl | rfl <;> simp +contextual
  · simp +contextual [hframe.spent, hframe.ovf]
  · exact ⟨by simp, fun _ _ => .inr hacc, by simp, fun _ _ => .inr hacc⟩
  · have hlen : (updateBytes nb s.dataIn).length ≤ 72 := by rw [updateBytes_length _ _ hnb]; omega
    have hspent : (absorb (updateBytes nb s.dataIn) { s with queue := rest }).spent = s.spent := (absorb_frame _ _).spent
    exact ⟨fun _ ht => absurd (hspent.symm.trans ht) (Bool.eq_false_iff.mp hs), fun hs' _ => absurd hs' (Bool.eq_false_iff.mp hs),
      fun h0 ht => absorb_ovf_rises (s := { s with queue := rest }) hlen h0 ht,
      fun h1 ht => absurd h1 (Bool.eq_false_iff.mp (ovf_of_absorb_ovf (s := { s with queue := rest }) hlen ht))⟩
  · have hlen := finalBytes_length_le s.bitCount
    exact ⟨fun _ _ => hacc, fun hs' _ => absurd hs' (Bool.eq_false_iff.mp hs),
      fun h0 ht => absorb_ovf_rises (s := { s with queue := rest, spent := true }) hlen h0 ht,
      fun h1 ht => absurd h1 (Bool.eq_false_iff.mp (ovf_of_absorb_ovf (s := { s with queue := rest, spent := true }) hlen ht))⟩

theorem absorb_marks_prefix {bs : List Byte} (hlen : bs.length ≤ 72) (s : State) : s.marks <+: (absorb bs s).marks := by
  rw [absorb_marks, absorbBytes_marks bs s (by omega)]
  exact List.prefix_append ..

/-- Settles O24: every writer of the marks appends. -/
theorem marksNeverCleared : Obligations.MarksNeverCleared := by
  unfold Obligations.MarksNeverCleared
  intro s t h
  rcases step_writers h with ⟨-, rfl⟩ | ⟨u, hu, rfl⟩ | ⟨-, hframe⟩ | ⟨rest, -, rfl⟩
    | ⟨rest, nb, -, hnb, -, rfl⟩ | ⟨rest, -, -, rfl⟩
  · simp
  · rcases hu with rfl | rfl <;> simp
  · exact hframe.marks
  · simp
  · exact absorb_marks_prefix (by rw [updateBytes_length _ _ hnb]; omega) { s with queue := rest }
  · exact absorb_marks_prefix (finalBytes_length_le _) { s with queue := rest, spent := true }

end Sys2Proof.Machine
end

section
/-! SUPPORT, and the proofs of O52, O53, O56 and O57. The invariants of spec/10_state.md R51, kept by each effect of a step, and the reset event
(R49; spec/70_reset_and_hazards.md R240). -/

namespace Sys2Proof.Machine

/-! ### A count of whole bytes -/

theorem wholeBytes_iff (s : State) : wholeBytes s ↔ s.bitCount.toNat % 8 = 0 := by
  rw [wholeBytes, ← BitVec.toNat_inj]
  simp

theorem absorbBytes_wholeBytes {s : State} (h : wholeBytes s) (bs : List Byte) : wholeBytes (absorbBytes bs s) := by
  rw [wholeBytes_iff] at h ⊢
  rw [absorbBytes_bitCount, BitVec.toNat_add, BitVec.toNat_ofNat]
  omega

/-! ### The parts of the invariant, effect by effect -/

theorem Cause.code_ne (c : Cause) : c.code ≠ 0 ∧ c.code ≠ 7 := by
  cases c <;> decide

/-- R212: an error records a cause of its own or keeps the first, and leaves a mark. -/
theorem recordError_inv {s : State} (h : s.Inv) (c : Cause) : (recordError c s).Inv := by
  obtain ⟨hbytes, hpend, ⟨hnone, hsome, h7⟩, hmark, hovf⟩ := h
  refine ⟨hbytes, hpend, ⟨by simp, fun _ => ?_, ?_⟩, fun _ => ⟨.error c, by simp, by simp⟩, fun ho => ?_⟩
  · cases he : s.err
    · simpa [he] using c.code_ne.1
    · simpa [he] using hsome he
  · cases he : s.err
    · simpa [he] using c.code_ne.2
    · simpa [he] using h7
  · exact List.mem_append_left _ (hovf ho)

theorem returnWord_inv {s : State} (h : s.Inv) (x : Word) : (returnWord x s).Inv := h

theorem pipelineStep_inv {s : State} (h : s.Inv) : (pipelineStep s).Inv := by
  obtain ⟨hbytes, hpend, herr, hmarks⟩ := h
  refine ⟨?_, fun hp => ?_, ?_, ?_⟩
  · rwa [wholeBytes, pipelineStep_bitCount]
  · obtain ⟨-, hindex, hspent⟩ := hpend (pend_of_pipelineStep_pend hp)
    exact ⟨pipelineStep_busy_of_pend (fun hp' => (hpend hp').1) hp, (pipelineStep_index s).trans hindex, (pipelineStep_spent s).trans hspent⟩
  · rwa [errorRecordOk, pipelineStep_err, pipelineStep_ecause]
  · rwa [marksOk, pipelineStep_err, pipelineStep_ovf, pipelineStep_marks]

theorem initEffect_inv {s : State} (h : s.Inv) (hb : s.busy = false) : (initEffect s).Inv := by
  obtain ⟨-, hpend, -, -⟩ := h
  refine ⟨?_, fun hp => ?_, ⟨by simp, by simp, by simp⟩, by simp, by simp⟩
  · rw [wholeBytes, initEffect_bitCount]
    rfl
  · rw [initEffect_pend] at hp
    simp [(hpend hp).1] at hb

theorem resetEvent_inv (s : State) : (resetEvent s).Inv := by
  refine ⟨?_, by simp, ⟨by simp, by simp, by simp⟩, by simp, by simp⟩
  rw [wholeBytes, resetEvent_bitCount]
  rfl

/-- A waiting block stands behind one in flight. -/
theorem absorbBytes_busy_of_pend (bs : List Byte) {s : State} (h : s.pend = true → s.busy = true) (hp : (absorbBytes bs s).pend = true) :
    (absorbBytes bs s).busy = true := by
  induction bs generalizing s with
  | nil => exact h hp
  | cons b bs ih =>
    refine ih (s := absorbByte b s) (fun hp' => ?_) hp
    rcases absorbByte_cases b s with ⟨-, he⟩ | ⟨-, -, he⟩ | ⟨-, hb, he⟩ <;> rw [he] at hp' ⊢
    · exact h hp'
    · rfl
    · exact hb

/-- Of the parts of the invariant, absorbing leaves only the one about a waiting block to the command. -/
theorem absorb_inv {bs : List Byte} {s : State} (h : s.Inv) (hlen : bs.length ≤ 72) (hpend : pendingOk (absorb bs s)) : (absorb bs s).Inv := by
  obtain ⟨hbytes, -, herr, hmark, hovf⟩ := h
  have hframe := absorb_frame bs s
  have hmarks : (absorb bs s).marks = s.marks ++ carryMark s.bitCount bs.length := by rw [absorb_marks, absorbBytes_marks bs s (by omega)]
  refine ⟨?_, hpend, ?_, ?_, fun ho => ?_⟩
  · rw [wholeBytes, absorb_bitCount]
    exact absorbBytes_wholeBytes hbytes bs
  · rwa [errorRecordOk, hframe.err, hframe.ecause]
  · rw [hframe.err, hmarks]
    exact fun he => (hmark he).imp fun m hm => ⟨List.mem_append_left _ hm.1, hm.2⟩
  · rw [absorb_ovf, absorbBytes_ovf bs s (by omega)] at ho
    rw [hmarks]
    cases hs : s.ovf
    · exact List.mem_append_right _ (mem_carryMark (by simpa [hs] using ho))
    · exact List.mem_append_left _ (hovf hs)

/-- R134: an UPDATE ends with no block waiting. -/
theorem absorb_updateBytes_inv {nb : BitVec 3} {s : State} (h : s.Inv) (hb : s.busy = false) (hnb : nb.toNat ≤ 4) :
    (absorb (updateBytes nb s.dataIn) s).Inv := by
  have hlen := updateBytes_length nb s.dataIn hnb
  have hidx := s.index.isLt
  refine absorb_inv h (by omega) fun hp => ?_
  rw [absorb_pend, absorbBytes_pend hb (by omega)] at hp
  obtain ⟨-, hpend, -⟩ := h
  simp [(hpend hp).1] at hb

/-- R138: after FINAL INDEX is 0 and SPENT is 1, whether or not a block waits. -/
theorem absorb_finalBytes_inv {s : State} (h : s.Inv) (hb : s.busy = false) : (absorb (finalBytes s.bitCount) { s with spent := true }).Inv := by
  obtain ⟨hbytes, hpend, herr, hmarks⟩ := h
  have hidle : s.pend = true → s.busy = true := fun hp => (hpend hp).1
  have hspentInv : State.Inv { s with spent := true } := ⟨hbytes, fun hp => absurd (hidle hp) (by simp [hb]), herr, hmarks⟩
  refine absorb_inv hspentInv (finalBytes_length_le _) fun hp => ⟨?_, absorb_finalBytes_index s, (absorb_frame _ _).spent⟩
  rw [absorb_pend] at hp
  rw [absorb_busy]
  exact absorbBytes_busy_of_pend _ hidle hp

/-- Settles O52: each effect of a step keeps the invariants. -/
theorem stepKeepsInvariant : Obligations.StepKeepsInvariant := by
  unfold Obligations.StepKeepsInvariant
  intro s t h hstep
  rcases step_effects hstep with ⟨-, rfl⟩ | ⟨-, rfl | rfl⟩ | ⟨u, rest, -, hu, haccess⟩ | ⟨rest, ⟨-, hb, -⟩, rfl⟩
    | ⟨rest, nb, ⟨-, hb, -⟩, hnb, -, rfl⟩ | ⟨rest, ⟨-, hb, -⟩, -, rfl⟩
  · exact resetEvent_inv s
  · exact pipelineStep_inv h
  · exact pipelineStep_inv (s := drawn s) h
  · have huInv : u.Inv := by rcases hu with rfl | rfl <;> exact h
    rcases haccess with ⟨c, rfl⟩ | ⟨c, rfl⟩ | ⟨x, rfl⟩ | ⟨x, -, rfl⟩ | rfl
    · exact recordError_inv huInv c
    · exact returnWord_inv (recordError_inv huInv c) 0
    · exact returnWord_inv huInv x
    · exact huInv
    · exact huInv
  · exact initEffect_inv (s := { s with queue := rest }) h hb
  · exact absorb_updateBytes_inv (s := { s with queue := rest }) h hb hnb
  · exact absorb_finalBytes_inv (s := { s with queue := rest }) h hb

/-! ### Reset -/

/-- Settles O53, by evaluation. -/
theorem resetMeetsInvariant : Obligations.ResetMeetsInvariant := by
  unfold Obligations.ResetMeetsInvariant
  decide

/-- Settles O56, by evaluation. -/
theorem resetState : Obligations.ResetState := by
  unfold Obligations.ResetState
  decide

theorem abortHeld_of_held {s : State} {a : Access} {rest : List Access} (hq : s.queue = a :: rest) (hb : s.busy = true)
    (hh : a.heldWhileBusy = true) : abortHeld s = rest := by
  simp [abortHeld, hq, hb, hh]

theorem abortHeld_of_not_held {s : State} {a : Access} {rest : List Access} (hq : s.queue = a :: rest)
    (h : s.busy = false ∨ a.heldWhileBusy = false) : abortHeld s = s.queue := by
  rcases h with h | h <;> simp [abortHeld, hq, h]

/-- Settles O57: the reset event field by field, and the queue by whether its oldest access is held. -/
theorem resetEventResult : Obligations.ResetEventResult := by
  unfold Obligations.ResetEventResult
  exact fun s hr => ⟨resetEvent s, step_of_resetIn hr, rfl, rfl, rfl, rfl, rfl, rfl, rfl, rfl, rfl, rfl, rfl, rfl,
    fun _ _ => abortHeld_of_held, fun _ _ => abortHeld_of_not_held, fun hq => by simp [abortHeld, hq]⟩

end Sys2Proof.Machine
end

section
/-! SUPPORT, and the proof of O54. Two states that differ only in hidden elements the current block has not written (spec/10_state.md R50) stay so under
every effect of a step. -/

namespace Sys2Proof.Machine

/-! ### Shared operations, branch by branch -/

section
variable {s : State}

theorem pipelineStep_of_not_lt (hb : s.busy = true) (ht : ¬ s.t.val < 64) : pipelineStep s = addStep s := by
  rw [pipelineStep, if_pos hb, dif_neg ht]

theorem addStep_of_pend (hp : s.pend = true) : addStep s = forgetTail (issue { s with h := finalAdd s.h s.v, pend := false }) := if_pos hp

theorem addStep_of_not_pend (hp : s.pend = false) : addStep s = forgetPipeline { s with h := finalAdd s.h s.v, busy := false } := by
  rw [addStep, if_neg (Bool.eq_false_iff.mp hp)]

theorem completeBlock_of_busy (hb : s.busy = true) : completeBlock s = { s with pend := true } := if_pos hb

theorem completeBlock_of_idle (hb : s.busy = false) : completeBlock s = issue s := if_neg (Bool.eq_false_iff.mp hb)

theorem finalEffect_of_spent (hs : s.spent = true) : finalEffect s = recordError .finSpent s := if_pos hs

theorem finalEffect_of_not_spent (hs : s.spent = false) : finalEffect s = absorb (finalBytes s.bitCount) { s with spent := true } :=
  if_neg (Bool.eq_false_iff.mp hs)

end

/-- A write that reaches neither CMD nor DATA_IN is bad: no other register is writable. -/
theorem writeTarget_eq_none_of_ne {off : Fin Config.windowBytes} {width : Nat} (hcmd : writeTarget off width ≠ some .cmd)
    (hdata : writeTarget off width ≠ some .dataIn) : writeTarget off width = none := by
  rcases ho : writeTarget off width with _ | r
  · rfl
  · have hw : r.writable = true := (Option.filter_eq_some_iff.mp ho).2
    cases r <;> simp_all [Reg.writable]

namespace AgreeOnWritten

variable {s s' : State}

theorem index (h : AgreeOnWritten s s') : s.index = s'.index := index_congr h.bitCount

theorem statusWord (h : AgreeOnWritten s s') : statusWord s = statusWord s' := by
  rw [Machine.statusWord, Machine.statusWord, h.busy, h.spent, h.err, h.ovf, h.index, h.ecause]

/-- No register the host reads is a hidden element. -/
theorem hostView (h : AgreeOnWritten s s') : s.hostView = s'.hostView := by
  rw [State.hostView, State.hostView, h.statusWord, h.bitCount, h.h, h.dataIn]

theorem readReg (h : AgreeOnWritten s s') (r : Reg) : readReg r s = readReg r s' := by
  cases r with
  | status => exact h.statusWord
  | digest i => exact congrArg (·[i]) h.h
  | _ => simp [Machine.readReg, h.dataIn, h.bitCount]

/-! ### The host's side -/

theorem recordError (h : AgreeOnWritten s s') (c : Cause) : AgreeOnWritten (recordError c s) (recordError c s') :=
  { h with
    err := rfl
    ecause := by simp [h.err, h.ecause]
    marks := congrArg (· ++ [Mark.error c]) h.marks }

theorem drawn (h : AgreeOnWritten s s') : AgreeOnWritten (drawn s) (drawn s') :=
  { h with draws := congrArg (· + 1) h.draws }

theorem returnWord (h : AgreeOnWritten s s') (x : Word) : AgreeOnWritten (returnWord x s) (returnWord x s') :=
  { h with reads := congrArg (· ++ [x]) h.reads }

theorem withQueue (h : AgreeOnWritten s s') (q : List Access) : AgreeOnWritten { s with queue := q } { s' with queue := q } :=
  { h with queue := rfl }

theorem withDataIn (h : AgreeOnWritten s s') (x : Word) : AgreeOnWritten { s with dataIn := x } { s' with dataIn := x } :=
  { h with dataIn := rfl }

/-! ### What becomes unspecified: equal counters draw alike -/

theorem forgetTail (h : AgreeOnWritten s s') : AgreeOnWritten (forgetTail s) (forgetTail s') :=
  { h with
    buf := fun j hj => (forgetTail_get s j j.isLt hj).trans ((h.buf j hj).trans
      (forgetTail_get s' j j.isLt (by rwa [← h.index, ← h.pend])).symm)
    draws := by simp [h.pend, h.draws] }

theorem forgetPipeline (h : AgreeOnWritten s s') : AgreeOnWritten (forgetPipeline s) (forgetPipeline s') :=
  { h with
    t := fun _ => by simp [h.draws]
    v := fun _ => by simp [h.draws]
    w := fun _ j _ => by simp [h.draws]
    draws := congrArg (· + 1) h.draws }

theorem resetEvent (h : AgreeOnWritten s s') : AgreeOnWritten (resetEvent s) (resetEvent s') := by
  have hqueue : abortHeld s = abortHeld s' := by rw [abortHeld, abortHeld, h.queue, h.busy]
  constructor <;> simp [hqueue, h.draws, h.reads, h.marks]

/-! ### The pipeline -/

/-- An issue writes the schedule words it lets a step read; it reads the whole block. -/
theorem issue (h : AgreeOnWritten s s') (hbuf : s.buf = s'.buf) : AgreeOnWritten (issue s) (issue s') := by
  refine { h with busy := rfl, t := fun _ => rfl, v := fun _ => congrArg Work.load h.h, w := fun _ j hj => ?_ }
  have h16 : j.val < 16 := hj.resolve_right (Nat.not_lt_zero _)
  show (loadBlock s.buf s.w)[j.val] = (loadBlock s'.buf s'.w)[j.val]
  rw [loadBlock_get, loadBlock_get, dif_pos h16, dif_pos h16, hbuf]

/-- A round step reads words that are written, and writes the next. -/
theorem roundStep (h : AgreeOnWritten s s') (hb : s.busy = true) (ht : s.t.val < 64) (ht' : s'.t.val < 64) :
    AgreeOnWritten (roundStep s ht) (roundStep s' ht') := by
  have heqt : s'.t.val = s.t.val := congrArg Fin.val (h.t hb).symm
  have hw : ∀ (j : Nat) (hj : j < 64), j < 16 ∨ j < s.t.val + 1 →
      (extendSchedule s.w s.t.val)[j] = (extendSchedule s'.w s'.t.val)[j] := by
    intro j hj hwritten
    have hread : ∀ (k : Nat) (_ : k < 64), k < s.t.val → s.w[k] = s'.w[k] := fun k hk hlt => h.w hb ⟨k, hk⟩ (.inr hlt)
    rw [heqt]
    by_cases hnew : j = s.t.val ∧ 16 ≤ j
    · obtain ⟨rfl, h16⟩ := hnew
      rw [extendSchedule_get_eq _ _ h16 hj, extendSchedule_get_eq _ _ h16 hj, hread _ (by omega) (by omega), hread (_ - 7) (by omega) (by omega),
        hread (_ - 15) (by omega) (by omega), hread (_ - 16) (by omega) (by omega)]
    · rw [extendSchedule_get_ne _ _ _ hj (by omega), extendSchedule_get_ne _ _ _ hj (by omega)]
      exact h.w hb ⟨j, hj⟩ (by simp only; omega)
  exact { h with
    t := fun _ => Fin.ext (congrArg (· + 1) heqt.symm)
    v := fun _ => by
      rw [roundStep_v, roundStep_v, h.v hb, ← heqt]
      exact roundAt_congr (fun hlt => by simpa only [heqt] using hw s.t.val (by omega) (.inr (Nat.lt_succ_self _))) _
    w := fun _ j hj => hw j j.isLt hj }

theorem addStep (h : AgreeOnWritten s s') (hb : s.busy = true) : AgreeOnWritten (addStep s) (addStep s') := by
  have hsum : finalAdd s.h s.v = finalAdd s'.h s'.v := by rw [h.h, h.v hb]
  cases hp : s.pend with
  | true =>
    have hbuf : s.buf = s'.buf := Vector.ext fun j hj => h.buf ⟨j, hj⟩ (.inr hp)
    have hfolded : AgreeOnWritten { s with h := finalAdd s.h s.v, pend := false } { s' with h := finalAdd s'.h s'.v, pend := false } :=
      { h with h := hsum, pend := rfl, buf := fun j _ => h.buf j (.inr hp) }
    rw [addStep_of_pend hp, addStep_of_pend (h.pend ▸ hp)]
    exact (hfolded.issue hbuf).forgetTail
  | false =>
    have hfolded : AgreeOnWritten { s with h := finalAdd s.h s.v, busy := false } { s' with h := finalAdd s'.h s'.v, busy := false } :=
      { h with h := hsum, busy := rfl, t := fun _ => h.t hb, v := fun _ => h.v hb, w := fun _ => h.w hb }
    rw [addStep_of_not_pend hp, addStep_of_not_pend (h.pend ▸ hp)]
    exact hfolded.forgetPipeline

theorem pipelineStep (h : AgreeOnWritten s s') : AgreeOnWritten (pipelineStep s) (pipelineStep s') := by
  cases hb : s.busy with
  | false => rwa [pipelineStep_of_idle hb, pipelineStep_of_idle (h.busy ▸ hb)]
  | true =>
    have hb' : s'.busy = true := h.busy ▸ hb
    by_cases ht : s.t.val < 64
    · have ht' : s'.t.val < 64 := h.t hb ▸ ht
      rw [pipelineStep_of_lt hb ht, pipelineStep_of_lt hb' ht']
      exact h.roundStep hb ht ht'
    · rw [pipelineStep_of_not_lt hb ht, pipelineStep_of_not_lt hb' (h.t hb ▸ ht)]
      exact h.addStep hb

/-! ### Absorbing -/

/-- A store makes one more byte agree; at INDEX 63 it is the last of the block. -/
theorem storeByte_get (h : AgreeOnWritten s s') (b : Byte) (j : Nat) (hj : j < 64) (hle : j ≤ s.index.toNat ∨ s.pend = true) :
    (storeByte b s).buf[j] = (storeByte b s').buf[j] := by
  have hindex : s'.index.toNat = s.index.toNat := congrArg BitVec.toNat h.index.symm
  simp only [storeByte_buf, Vector.getElem_set, hindex]
  split
  · rfl
  · exact h.buf ⟨j, hj⟩ (hle.imp_left fun hle => by simp only; omega)

theorem storeByte (h : AgreeOnWritten s s') (b : Byte) : AgreeOnWritten (storeByte b s) (storeByte b s') :=
  { h with
    bitCount := congrArg addByte h.bitCount
    ovf := by simp [h.ovf, h.bitCount]
    marks := by simp [h.marks, h.bitCount]
    buf := fun j hj => by
      refine h.storeByte_get b j j.isLt (hj.imp_left fun hlt => ?_)
      rw [storeByte_index] at hlt
      omega }

theorem absorbByte (h : AgreeOnWritten s s') (b : Byte) : AgreeOnWritten (absorbByte b s) (absorbByte b s') := by
  rw [Machine.absorbByte, Machine.absorbByte, ← h.index]
  split
  · next hlast =>
    have hget : ∀ (j : Nat) (hj : j < 64), (Machine.storeByte b s).buf[j] = (Machine.storeByte b s').buf[j] := fun j hj =>
      h.storeByte_get b j hj (.inl (by rw [hlast]; exact Nat.le_of_lt_succ hj))
    have hstore := h.storeByte b
    cases hb : (Machine.storeByte b s).busy with
    | true =>
      rw [completeBlock_of_busy hb, completeBlock_of_busy (hstore.busy ▸ hb)]
      exact { hstore with pend := rfl, buf := fun j _ => hget j j.isLt }
    | false =>
      rw [completeBlock_of_idle hb, completeBlock_of_idle (hstore.busy ▸ hb)]
      exact hstore.issue (Vector.ext hget)
  · exact h.storeByte b

theorem absorbBytes (h : AgreeOnWritten s s') (bs : List Byte) : AgreeOnWritten (absorbBytes bs s) (absorbBytes bs s') := by
  induction bs generalizing s s' with
  | nil => exact h
  | cons b bs ih => exact ih (h.absorbByte b)

theorem absorb (h : AgreeOnWritten s s') (bs : List Byte) : AgreeOnWritten (absorb bs s) (absorb bs s') := by
  rw [Machine.absorb, Machine.absorb]
  split
  · exact h
  · exact (h.absorbBytes bs).forgetTail

/-! ### The commands' effects -/

/-- R132: with INDEX 0 the bytes that are meaningful are those of a waiting block, as before. -/
theorem initWrites (h : AgreeOnWritten s s') : AgreeOnWritten (initWrites s) (initWrites s') :=
  { h with
    h := rfl
    bitCount := rfl
    spent := rfl
    ovf := rfl
    err := rfl
    ecause := rfl
    buf := fun j hj => h.buf j (.inr (hj.resolve_left (by simp [State.index, indexOf, Machine.initWrites]))) }

theorem initEffect (h : AgreeOnWritten s s') : AgreeOnWritten (initEffect s) (initEffect s') := by
  rw [Machine.initEffect, Machine.initEffect, ← h.index]
  split
  · exact h.initWrites
  · exact h.initWrites.forgetTail

theorem updateEffect (h : AgreeOnWritten s s') (nb : BitVec 3) : AgreeOnWritten (updateEffect nb s) (updateEffect nb s') := by
  rw [Machine.updateEffect, Machine.updateEffect, ← h.spent, ← h.dataIn]
  split
  · exact h.recordError _
  · split
    · exact h.recordError _
    · exact h.absorb _

theorem finalEffect (h : AgreeOnWritten s s') : AgreeOnWritten (finalEffect s) (finalEffect s') := by
  cases hs : s.spent with
  | true =>
    rw [finalEffect_of_spent hs, finalEffect_of_spent (h.spent ▸ hs)]
    exact h.recordError _
  | false =>
    have hspent : AgreeOnWritten { s with spent := true } { s' with spent := true } := { h with spent := rfl }
    have hbytes : finalBytes s.bitCount = finalBytes s'.bitCount := congrArg finalBytes h.bitCount
    rw [finalEffect_of_not_spent hs, finalEffect_of_not_spent (h.spent ▸ hs), ← hbytes]
    exact hspent.absorb _

end AgreeOnWritten

/-! ### Outcomes -/

/-- Both are next states, and they agree. -/
def OutcomesAgree (o o' : Host.Outcome State Fault Refusal) : Prop :=
  ∃ t t', o = .next t ∧ o' = .next t' ∧ AgreeOnWritten t t'

section
variable {s s' : State} (h : AgreeOnWritten s s')
include h

theorem outcomesAgree_accept {f : State → State} (hf : AgreeOnWritten (f s) (f s')) : OutcomesAgree (accept f s) (accept f s') := by
  refine ⟨_, _, rfl, rfl, ?_⟩
  rw [← h.busy]
  split
  · exact h
  · exact hf

theorem outcomesAgree_exec (i : Instr) : OutcomesAgree (exec i s) (exec i s') := by
  cases i with
  | nop => exact outcomesAgree_accept h h
  | init => exact outcomesAgree_accept h h.initEffect
  | update nb => exact outcomesAgree_accept h (h.updateEffect nb)
  | final => exact outcomesAgree_accept h h.finalEffect
  | reservedOp47 low high => exact outcomesAgree_accept h (h.recordError .rsvOp)
  | reservedOp8F low high => exact outcomesAgree_accept h (h.recordError .rsvOp)

theorem outcomesAgree_acceptWord (cw : Word) : OutcomesAgree (acceptWord cw s) (acceptWord cw s') := by
  cases hd : decode cw with
  | ok i =>
    rw [acceptWord_ok hd, acceptWord_ok hd]
    exact outcomesAgree_exec h i
  | error e =>
    rw [acceptWord_error hd, acceptWord_error hd]
    exact outcomesAgree_accept h (h.recordError _)

theorem outcomesAgree_perform (a : Access) : OutcomesAgree (perform a s) (perform a s') := by
  cases a with
  | read off width =>
    cases hr : readTarget off width with
    | none =>
      rw [perform_read_of_bad hr, perform_read_of_bad hr]
      exact ⟨_, _, rfl, rfl, (h.recordError _).returnWord 0⟩
    | some r =>
      obtain ⟨rfl, rfl⟩ := eq_offset_of_readTarget hr
      exact ⟨_, _, perform_rd r s, perform_rd r s', h.readReg r ▸ h.returnWord _⟩
  | write off width x =>
    by_cases hcmd : writeTarget off width = some .cmd
    · obtain ⟨rfl, rfl⟩ := writeTarget_cmd hcmd
      exact perform_command x s ▸ perform_command x s' ▸ outcomesAgree_acceptWord h x
    by_cases hdata : writeTarget off width = some .dataIn
    · obtain ⟨rfl, rfl⟩ := writeTarget_dataIn hdata
      exact ⟨_, _, perform_wr_dataIn x s, perform_wr_dataIn x s', h.withDataIn x⟩
    · have hbad := writeTarget_eq_none_of_ne hcmd hdata
      exact ⟨_, _, perform_write_of_bad hbad x s, perform_write_of_bad hbad x s', h.recordError _⟩

theorem outcomesAgree_step : OutcomesAgree (step s) (step s') := by
  cases hr : s.resetIn with
  | true => exact ⟨_, _, step_of_resetIn hr, step_of_resetIn (h.resetIn ▸ hr), h.resetEvent⟩
  | false =>
    have hr' : s'.resetIn = false := h.resetIn ▸ hr
    rcases hq : s.queue with _ | ⟨a, rest⟩
    · exact ⟨_, _, step_of_queue_nil hr hq, step_of_queue_nil hr' (h.queue ▸ hq), h.pipelineStep⟩
    have hq' : s'.queue = a :: rest := h.queue ▸ hq
    cases hb : s.busy with
    | false =>
      rw [step_of_idle hr hq hb, step_of_idle hr' hq' (h.busy ▸ hb)]
      exact outcomesAgree_perform (h.withQueue rest) a
    | true =>
      have hb' : s'.busy = true := h.busy ▸ hb
      cases hh : a.heldWhileBusy with
      | true => exact ⟨_, _, step_of_held hr hq hb hh, step_of_held hr' hq' hb' hh, h.pipelineStep⟩
      | false =>
        cases hturn : Config.turn s.draws with
        | host =>
          rw [step_of_host_turn hr hq hb hh hturn, step_of_host_turn hr' hq' hb' hh (h.draws ▸ hturn)]
          exact outcomesAgree_perform (h.drawn.withQueue rest) a
        | pipeline =>
          exact ⟨_, _, step_of_pipeline_turn hr hq hb hh hturn, step_of_pipeline_turn hr' hq' hb' hh (h.draws ▸ hturn), h.drawn.pipelineStep⟩

end

/-- Settles O54: the two steps are the same effect, and no effect reads what the states differ in. -/
theorem unwrittenElementsNeverRead : Obligations.UnwrittenElementsNeverRead := by
  unfold Obligations.UnwrittenElementsNeverRead
  intro s s' t t' _ _ h hstep hstep'
  obtain ⟨u, u', hu, hu', hagree⟩ := outcomesAgree_step h
  obtain rfl : u = t := by simpa [hu] using hstep
  obtain rfl : u' = t' := by simpa [hu'] using hstep'
  exact ⟨hagree, hagree.hostView⟩

end Sys2Proof.Machine
end

section
/-! SUPPORT, and the proofs of O46 to O51. The pipeline as a whole (spec/42_pipeline.md R191 to R197): how many steps are left, and what the state array
will hold when they are taken. -/

namespace Sys2Proof.Machine

/-! ### Issue, the add step and a round step -/

/-- Settles O47: the schedule is the block's words over what stood there, the rest is by definition. -/
theorem issueResult : Obligations.IssueResult := by
  unfold Obligations.IssueResult
  refine fun s => ⟨fun j hj => ?_, fun j hj h16 => ?_, rfl⟩
  · rw [issue_w, loadBlock_get _ _ _ (by omega), dif_pos hj]
  · rw [issue_w, loadBlock_get _ _ _ hj, dif_neg (by omega)]

/-- Settles O46: the two forms of the add step. -/
theorem addStepResult : Obligations.AddStepResult := by
  unfold Obligations.AddStepResult
  intro s hb ht
  rw [pipelineStep_of_not_lt hb (by simp [ht])]
  cases hp : s.pend with
  | false =>
    rw [addStep_of_not_pend hp]
    exact ⟨rfl, hp, fun _ => rfl, fun h => absurd h Bool.false_ne_true⟩
  | true =>
    rw [addStep_of_pend hp]
    exact ⟨rfl, rfl, fun h => absurd h.symm Bool.false_ne_true, fun _ => rfl⟩

/-- Settles O50: the round reads the word of its own step, which is a word of the block or comes from the four before it. -/
theorem scheduleWindow : Obligations.ScheduleWindow := by
  unfold Obligations.ScheduleWindow
  intro s s' hb hb' ht heqt heqv hlow hhigh
  have heqt' : s'.t.val = s.t.val := congrArg Fin.val heqt
  have hword : (extendSchedule s'.w s.t.val)[s.t.val] = (extendSchedule s.w s.t.val)[s.t.val] := by
    by_cases h16 : s.t.val < 16
    · rw [extendSchedule_get_ne _ _ _ ht (.inr h16), extendSchedule_get_ne _ _ _ ht (.inr h16)]
      exact hlow h16 ⟨s.t.val, ht⟩ rfl
    · have h16' : 16 ≤ s.t.val := Nat.not_lt.mp h16
      have hback : ∀ (j : Nat) (hj : j < 64), j + 2 = s.t.val ∨ j + 7 = s.t.val ∨ j + 15 = s.t.val ∨ j + 16 = s.t.val → s'.w[j] = s.w[j] :=
        fun j hj hplace => hhigh h16' ⟨j, hj⟩ hplace
      rw [extendSchedule_get_eq _ _ h16' ht, extendSchedule_get_eq _ _ h16' ht, hback _ (by omega) (by omega), hback (_ - 7) (by omega) (by omega),
        hback (_ - 15) (by omega) (by omega), hback (_ - 16) (by omega) (by omega)]
  rw [pipelineStep_of_lt hb ht, pipelineStep_of_lt hb' (heqt'.trans_lt ht)]
  refine ⟨?_, fun j hj => ?_⟩
  · simp only [roundStep_v, heqt', heqv]
    exact roundAt_congr (fun _ => hword) _
  · simp only [roundStep_w, heqt', Fin.getElem_fin, hj]
    exact hword

/-! ### The steps that are left -/

/-- The pipeline steps until BUSY is 0: those left of the block in flight, and all of a waiting one. -/
def stepsLeft (s : State) : Nat :=
  if s.busy then (if s.pend then 2 * Config.stepsPerBlock else Config.stepsPerBlock) - s.t.val else 0

theorem stepsLeft_eq_zero_iff (s : State) : stepsLeft s = 0 ↔ s.busy = false := by
  have := s.t.isLt
  simp only [stepsLeft, Config.stepsPerBlock]
  cases s.busy <;> cases s.pend <;> simp <;> omega

theorem stepsLeft_le (s : State) : stepsLeft s ≤ 130 := by
  simp only [stepsLeft, Config.stepsPerBlock]
  split
  · split <;> omega
  · omega

/-- R197: each step takes one away. -/
theorem stepsLeft_pipelineStep (s : State) : stepsLeft (pipelineStep s) = stepsLeft s - 1 := by
  rcases pipelineStep_cases s with ⟨hb, he⟩ | ⟨hb, ht, he⟩ | ⟨hb, ht, hp, he⟩ | ⟨hb, ht, hp, he⟩
  · simp [he, stepsLeft, hb]
  · simp only [he, stepsLeft, roundStep_busy, roundStep_pend, roundStep_t, hb, if_true]
    omega
  · simp [he, stepsLeft, hb, hp, ht, Config.stepsPerBlock]
  · simp [he, stepsLeft, hb, hp, ht, Config.stepsPerBlock]

theorem stepsLeft_pipelineSteps (n : Nat) (s : State) : stepsLeft (pipelineSteps n s) = stepsLeft s - n := by
  induction n with
  | zero => rfl
  | succ n ih => rw [pipelineSteps_succ, stepsLeft_pipelineStep, ih, Nat.sub_sub]

theorem pipelineSteps_busy_iff (n : Nat) (s : State) : (pipelineSteps n s).busy = true ↔ n < stepsLeft s := by
  rw [← Nat.sub_ne_zero_iff_lt, ← stepsLeft_pipelineSteps, ne_eq, stepsLeft_eq_zero_iff, Bool.not_eq_false]

theorem pipelineSteps_stepsLeft_busy (s : State) : (pipelineSteps (stepsLeft s) s).busy = false := by
  rw [← stepsLeft_eq_zero_iff, stepsLeft_pipelineSteps, Nat.sub_self]

/-- Settles O48: the count is the steps left. -/
theorem drainTakesExactSteps : Obligations.DrainTakesExactSteps := by
  unfold Obligations.DrainTakesExactSteps
  intro s hb n
  have hn : n = stepsLeft s := (if_pos hb).symm
  rw [hn]
  exact ⟨pipelineSteps_stepsLeft_busy s, fun k hk => (pipelineSteps_busy_iff k s).mpr hk⟩

/-! ### Where the state array is heading -/

/-- The block `blk` is in flight: its rounds up to `t` are done on the state array, and its schedule stands as far as it is written. -/
structure InFlight (blk : Block) (s : State) : Prop where
  busy : s.busy = true
  v : s.v = roundsTo (schedule blk) (Work.load s.h) s.t.val
  w : ∀ (j : Nat) (_ : j < 64), j < 16 ∨ j < s.t.val → s.w[j] = (schedule blk)[j]

/-- With no more host access the state array becomes `x`: at once, or when the block in flight is folded in, and the waiting one after it. -/
def SettlesTo (x : Digest) (s : State) : Prop :=
  (s.busy = false ∧ s.h = x)
  ∨ ∃ blk, InFlight blk s ∧ x = if s.pend then compress (compress s.h blk) s.buf else compress s.h blk

theorem inFlight_issue (s : State) : InFlight s.buf (issue s) where
  busy := rfl
  v := rfl
  w := fun j hj hlow => by
    have h16 : j < 16 := hlow.resolve_right (Nat.not_lt_zero _)
    rw [issue_w, schedule_get_low _ h16, loadBlock_get _ _ _ hj, dif_pos h16]

theorem inFlight_roundStep {blk : Block} {s : State} (h : InFlight blk s) (ht : s.t.val < 64) : InFlight blk (roundStep s ht) := by
  have hw : ∀ (j : Nat) (hj : j < 64), j < 16 ∨ j < s.t.val + 1 → (extendSchedule s.w s.t.val)[j] = (schedule blk)[j] := by
    intro j hj hwritten
    by_cases hnew : j = s.t.val ∧ 16 ≤ j
    · obtain ⟨rfl, h16⟩ := hnew
      rw [extendSchedule_get_eq _ _ h16 hj, schedule_get_step blk h16 hj, h.w _ (by omega) (by omega), h.w (_ - 7) (by omega) (by omega),
        h.w (_ - 15) (by omega) (by omega), h.w (_ - 16) (by omega) (by omega)]
    · rw [extendSchedule_get_ne _ _ _ hj (by omega), h.w j hj (by omega)]
  refine ⟨h.busy, ?_, hw⟩
  rw [roundStep_v, roundStep_h, roundStep_t, roundsTo, h.v]
  exact roundAt_congr (fun hlt => hw s.t.val hlt (.inr (Nat.lt_succ_self _))) _

/-- R193, R168: the add step ends the transform. -/
theorem finalAdd_of_inFlight {blk : Block} {s : State} (h : InFlight blk s) (ht : s.t.val = 64) : finalAdd s.h s.v = compress s.h blk := by
  rw [h.v, ht, compress]

/-- R194: a pipeline step does not change where the state array is heading. -/
theorem settlesTo_pipelineStep {x : Digest} {s : State} (h : SettlesTo x s) : SettlesTo x (pipelineStep s) := by
  rcases h with ⟨hb, hx⟩ | ⟨blk, hflight, hx⟩
  · rw [pipelineStep_of_idle hb]
    exact .inl ⟨hb, hx⟩
  rcases pipelineStep_cases s with ⟨hb, -⟩ | ⟨-, ht, he⟩ | ⟨-, ht, hp, he⟩ | ⟨-, ht, hp, he⟩
  · simp [hflight.busy] at hb
  · rw [he]
    exact .inr ⟨blk, inFlight_roundStep hflight ht, hx⟩
  · rw [he, finalAdd_of_inFlight hflight ht]
    rw [hp, if_pos rfl] at hx
    have hissued := inFlight_issue { s with h := compress s.h blk, pend := false }
    exact .inr ⟨s.buf, ⟨rfl, hissued.v, hissued.w⟩, hx⟩
  · rw [he, finalAdd_of_inFlight hflight ht]
    rw [hp, if_neg Bool.false_ne_true] at hx
    exact .inl ⟨rfl, hx.symm⟩

theorem settlesTo_pipelineSteps {x : Digest} {s : State} (h : SettlesTo x s) (n : Nat) : SettlesTo x (pipelineSteps n s) := by
  induction n with
  | zero => exact h
  | succ n ih => exact pipelineSteps_succ n s ▸ settlesTo_pipelineStep ih

theorem h_of_settlesTo {x : Digest} {s : State} (h : SettlesTo x s) (hb : s.busy = false) : s.h = x := by
  rcases h with ⟨-, hx⟩ | ⟨blk, hflight, -⟩
  · exact hx
  · simp [hflight.busy] at hb

/-- R191: what an issue sets going. -/
theorem settlesTo_issue {s : State} (hp : s.pend = false) : SettlesTo (compress s.h s.buf) (issue s) := by
  refine .inr ⟨s.buf, inFlight_issue s, ?_⟩
  rw [issue_pend, hp, if_neg Bool.false_ne_true]
  rfl

theorem pipelineSteps_busy_of_pend {s : State} (h : s.pend = true → s.busy = true) (n : Nat) :
    (pipelineSteps n s).pend = true → (pipelineSteps n s).busy = true := by
  induction n with
  | zero => exact h
  | succ n ih => exact pipelineSteps_succ n s ▸ pipelineStep_busy_of_pend ih

/-- When the steps left are taken, the state array is where it was heading and nothing waits. -/
theorem pipelineSteps_stepsLeft {x : Digest} {s : State} (h : SettlesTo x s) (hpend : s.pend = true → s.busy = true) :
    (pipelineSteps (stepsLeft s) s).h = x ∧ (pipelineSteps (stepsLeft s) s).busy = false ∧ (pipelineSteps (stepsLeft s) s).pend = false := by
  have hidle := pipelineSteps_stepsLeft_busy s
  refine ⟨h_of_settlesTo (settlesTo_pipelineSteps h _) hidle, hidle, ?_⟩
  by_contra hp
  exact absurd (pipelineSteps_busy_of_pend hpend _ (Bool.not_eq_false _ ▸ hp)) (Bool.eq_false_iff.mp hidle)

/-- Settles O49: an issue is heading for the transform of the block, and then for that of the block behind it. -/
theorem pipelineComputesCompress : Obligations.PipelineComputesCompress := by
  unfold Obligations.PipelineComputesCompress
  refine fun s hp => ⟨?_, fun second => ?_⟩
  · have hleft : stepsLeft (issue s) = Config.stepsPerBlock := by simp [stepsLeft, hp]
    exact hleft ▸ pipelineSteps_stepsLeft (settlesTo_issue hp) fun _ => rfl
  · have hleft : stepsLeft { issue s with buf := second, pend := true } = 2 * Config.stepsPerBlock := by simp [stepsLeft]
    have hissued := inFlight_issue s
    have hsettles : SettlesTo (compress (compress s.h s.buf) second) { issue s with buf := second, pend := true } :=
      .inr ⟨s.buf, ⟨rfl, hissued.v, hissued.w⟩, rfl⟩
    exact hleft ▸ pipelineSteps_stepsLeft hsettles fun _ => rfl

/-! ### A held access waits for an idle engine -/

theorem run_succ_of_step {s u : State} (h : step s = .next u) (n : Nat) : Host.Core.run core (n + 1) s = Host.Core.run core n u := by
  have hcore : core.step s = .next u := h
  simp only [Host.Core.run, hcore]

/-- R244: while a held access waits, the machine's run is the pipeline's. -/
theorem run_of_held {s : State} {a : Access} {rest : List Access} (hr : s.resetIn = false) (hq : s.queue = a :: rest)
    (hh : a.heldWhileBusy = true) (n : Nat) (hn : n ≤ stepsLeft s) : Host.Core.run core n s = .next (pipelineSteps n s) := by
  induction n generalizing s with
  | zero => rfl
  | succ n ih =>
    have hb : s.busy = true := (pipelineSteps_busy_iff 0 s).mpr (by omega)
    rw [run_succ_of_step (step_of_held hr hq hb hh)]
    exact ih (by simpa using hr) (by simpa using hq) (by rw [stepsLeft_pipelineStep]; omega)

@[simp] theorem pipelineSteps_queue (n : Nat) (s : State) : (pipelineSteps n s).queue = s.queue := by
  induction n with
  | zero => rfl
  | succ n ih => rw [pipelineSteps_succ, pipelineStep_queue, ih]

@[simp] theorem pipelineSteps_resetIn (n : Nat) (s : State) : (pipelineSteps n s).resetIn = s.resetIn := by
  induction n with
  | zero => rfl
  | succ n ih => rw [pipelineSteps_succ, pipelineStep_resetIn, ih]

/-- Settles O51: after the steps left the engine is idle, and its oldest access is the held one. -/
theorem heldAccessMeetsIdleEngine : Obligations.HeldAccessMeetsIdleEngine := by
  unfold Obligations.HeldAccessMeetsIdleEngine
  intro s a rest hr _ hq hh
  have hidle := pipelineSteps_stepsLeft_busy s
  have hq' : (pipelineSteps (stepsLeft s) s).queue = a :: rest := (pipelineSteps_queue _ s).trans hq
  exact ⟨stepsLeft s, _, stepsLeft_le s, run_of_held hr hq hh _ le_rfl, hidle, hq',
    step_of_idle ((pipelineSteps_resetIn _ s).trans hr) hq' hidle⟩

end Sys2Proof.Machine
end

section
/-! SUPPORT, and the proofs of O59 and O60. The platform (spec/00_scope.md R5; spec/20_memory.md R70; spec/60_exceptions.md R224): each engine by itself,
and one slot for each address of a window. -/

namespace Sys2Proof.Machine

/-! ### One step of one engine -/

/-- When a slot of the platform takes a step, its engine moves, in its place. -/
theorem stepAt_next {p q : Platform} {k : Nat} (h : p.stepAt k = .next q) :
    ∃ x t, p.slots[k]? = some x ∧ q = ⟨p.slots.set k { x with engine := t }⟩ := by
  unfold Platform.stepAt at h
  split at h
  · cases h
  · next x hx =>
    split at h
    · next t _ => exact ⟨x, t, hx, by simpa using h.symm⟩
    · cases h
    · cases h

/-- Settles O59: the list changes in one place alone, and the window stays there too. -/
theorem instancesIndependent : Obligations.InstancesIndependent := by
  unfold Obligations.InstancesIndependent
  intro p q k h
  obtain ⟨x, t, hx, rfl⟩ := stepAt_next h
  refine ⟨List.length_set .., ?_, fun j hj => List.getElem?_set_ne hj.symm⟩
  obtain ⟨hk, rfl⟩ := List.getElem?_eq_some_iff.mp hx
  rw [List.map_set]
  have hsame : Slot.page { p.slots[k] with engine := t } = (p.slots.map Slot.page)[k]'(by simpa using hk) := by rw [List.getElem_map]
  rw [hsame, List.set_getElem_self]

/-! ### The window an address lies in -/

/-- R70: the windows are the pages of 0x80 bytes. -/
theorem page_eq_iff (x : Slot) (addr : Nat) : x.page = addr / Config.windowBytes ↔ x.base ≤ addr ∧ addr < x.base + 0x80 := by
  simp only [Slot.base, Config.windowBytes]
  omega

theorem locate_eq_none {p : Platform} {addr : Nat} (h : ∀ x ∈ p.slots, addr < x.base ∨ x.base + 0x80 ≤ addr) : p.locate addr = none := by
  refine List.findIdx?_eq_none_iff.mpr fun x hx => decide_eq_false fun hpage => ?_
  have := (page_eq_iff x addr).mp hpage
  have := h x hx
  omega

/-- R5: no other slot has the window. -/
theorem locate_eq_some {p : Platform} (hwf : p.wf) {addr k : Nat} {x : Slot} (hx : p.slots[k]? = some x) (hlo : x.base ≤ addr)
    (hhi : addr < x.base + 0x80) : p.locate addr = some k := by
  obtain ⟨hk, rfl⟩ := List.getElem?_eq_some_iff.mp hx
  have hpage := (page_eq_iff _ addr).mpr ⟨hlo, hhi⟩
  refine List.findIdx?_eq_some_iff_getElem.mpr ⟨hk, decide_eq_true hpage, fun j hj => ?_⟩
  simp only [decide_eq_true_eq]
  intro hpage'
  have hsame : (p.slots.map Slot.page)[j]'(by simp; omega) = (p.slots.map Slot.page)[k]'(by simpa using hk) := by
    rw [List.getElem_map, List.getElem_map, hpage', hpage]
  exact hj.ne ((List.Nodup.getElem_inj_iff hwf.2).mp hsame)

/-- Settles O60: the address decode finds the slot of the window, or none. -/
theorem presentRoutesByWindow : Obligations.PresentRoutesByWindow := by
  unfold Obligations.PresentRoutesByWindow
  refine fun p host a hwf => ⟨fun hout => ?_, fun k x hx hlo hhi => ?_⟩
  · simp [Platform.present, locate_eq_none hout]
  · have hfound := locate_eq_some hwf hx hlo hhi
    exact ⟨fun hother => by simp [Platform.present, hfound, hx, hother], fun hown => by simp [Platform.present, hfound, hx, hown]⟩

end Sys2Proof.Machine
end

section
/-! SUPPORT. The bytes of a message in the engine (spec/40_commands.md R133, R142): what the buffer and the state array hold of them, whatever the pipeline
has done so far. -/

namespace Sys2Proof.Machine

/-! ### The fold of the transform -/

/-- Later bytes do not change the blocks that are complete. -/
theorem compressBlocks_append (n : Nat) (bs ys : List Byte) (x : Digest) (h : 64 * n ≤ bs.length) :
    compressBlocks n (bs ++ ys) x = compressBlocks n bs x := by
  induction n generalizing bs x with
  | zero => rfl
  | succ n ih =>
    have hblock : blockOf (bs ++ ys) = blockOf bs := by
      refine Vector.ext fun j hj => ?_
      simp only [blockOf, Vector.getElem_ofFn]
      exact List.getD_append _ _ _ _ (by omega)
    rw [compressBlocks, compressBlocks, hblock, List.drop_append_of_le_length (by omega), ih _ _ (by rw [List.length_drop]; omega)]

theorem compressBlocks_succ (n : Nat) (bs : List Byte) (x : Digest) :
    compressBlocks (n + 1) bs x = compress (compressBlocks n bs x) (blockOf (bs.drop (64 * n))) := by
  induction n generalizing bs x with
  | zero => rfl
  | succ n ih =>
    rw [compressBlocks, ih, compressBlocks, List.drop_drop, Nat.mul_succ, Nat.add_comm 64]

/-! ### Where the state array is heading, and the rest of the state -/

/-- Nothing but the pipeline's elements, and a waiting block, decides where the state array is heading. -/
theorem settlesTo_congr {x : Digest} {s s' : State} (h : SettlesTo x s) (hh : s'.h = s.h) (hbusy : s'.busy = s.busy) (hpend : s'.pend = s.pend)
    (ht : s'.t = s.t) (hv : s'.v = s.v) (hw : s'.w = s.w) (hbuf : s.pend = true → s'.buf = s.buf) : SettlesTo x s' := by
  rcases h with ⟨hb, hx⟩ | ⟨blk, ⟨hb, hvs, hws⟩, hx⟩
  · exact .inl ⟨hbusy.trans hb, hh.trans hx⟩
  · refine .inr ⟨blk, ⟨hbusy.trans hb, ?_, ?_⟩, ?_⟩
    · rw [hv, hh, ht, hvs]
    · rw [hw, ht]
      exact hws
    · rw [hpend, hh, hx]
      split
      · next hp => rw [hbuf hp]
      · rfl

theorem completeBlock_bitCount (s : State) : (completeBlock s).bitCount = s.bitCount := by
  cases hb : s.busy with
  | false => rw [completeBlock_of_idle hb, issue_bitCount]
  | true => rw [completeBlock_of_busy hb]

/-- A byte has completed the block in `Buf`: it follows whatever the state array was heading for. -/
theorem settlesTo_completeBlock {x : Digest} {s : State} (h : SettlesTo x s) (hp : s.pend = false) :
    SettlesTo (compress x s.buf) (completeBlock s) := by
  cases hb : s.busy with
  | false =>
    rw [completeBlock_of_idle hb, ← h_of_settlesTo h hb]
    exact settlesTo_issue hp
  | true =>
    rw [completeBlock_of_busy hb]
    rcases h with ⟨hb', -⟩ | ⟨blk, ⟨-, hv, hw⟩, hx⟩
    · exact absurd hb (Bool.eq_false_iff.mp hb')
    · rw [hp, if_neg Bool.false_ne_true] at hx
      exact .inr ⟨blk, ⟨hb, hv, hw⟩, by rw [hx]; rfl⟩

/-! ### The bytes absorbed so far -/

/-- The engine has absorbed `m` since INIT: its complete blocks are in the state array or on the way, and the bytes after them are in `Buf`. -/
structure Absorbed (m : List Byte) (s : State) : Prop where
  count : s.bitCount = BitVec.ofNat 64 (8 * m.length)
  settles : SettlesTo (compressBlocks (m.length / 64) m initialValue) s
  tail : ∀ (j : Nat) (_ : j < 64), j < m.length % 64 → s.buf[j] = m.getD (64 * (m.length / 64) + j) 0

theorem Absorbed.index_toNat {m : List Byte} {s : State} (h : Absorbed m s) : s.index.toNat = m.length % 64 := by
  rw [State.index, h.count, indexOf_ofNat_bits]

theorem Absorbed.pipelineStep {m : List Byte} {s : State} (h : Absorbed m s) : Absorbed m (pipelineStep s) where
  count := (pipelineStep_bitCount s).trans h.count
  settles := settlesTo_pipelineStep h.settles
  tail := fun j hj hlt => by
    rw [pipelineStep_get s j hj (.inl (by rwa [pipelineStep_index, h.index_toNat])), h.tail j hj hlt]

theorem Absorbed.forgetTail {m : List Byte} {s : State} (h : Absorbed m s) : Absorbed m (forgetTail s) where
  count := h.count
  settles := settlesTo_congr h.settles rfl rfl rfl rfl rfl rfl fun hp => by rw [forgetTail_buf, if_pos hp]
  tail := fun j hj hlt => by
    rw [forgetTail_get s j hj (.inl (by rwa [h.index_toNat])), h.tail j hj hlt]

/-- What a stored byte adds to the buffered ones. -/
theorem storeByte_tail {m : List Byte} {s : State} (h : Absorbed m s) (b : Byte) (j : Nat) (hj : j < 64) (hle : j ≤ m.length % 64) :
    (storeByte b s).buf[j] = (m ++ [b]).getD (64 * (m.length / 64) + j) 0 := by
  simp only [storeByte_buf, Vector.getElem_set, h.index_toNat]
  split
  · next heq =>
    have hlast : 64 * (m.length / 64) + j = m.length := by omega
    simp [hlast]
  · next hne =>
    rw [h.tail j hj (by omega), List.getD_append _ _ _ _ (by omega)]

section
variable {m : List Byte} {s : State} (h : Absorbed m s) (hp : s.pend = false) (b : Byte)
include h hp

/-- A stored byte alone does not change where the state array is heading: the complete blocks are those of before. -/
theorem settlesTo_storeByte : SettlesTo (compressBlocks (m.length / 64) (m ++ [b]) initialValue) (storeByte b s) := by
  rw [compressBlocks_append _ _ _ _ (by omega)]
  exact settlesTo_congr h.settles rfl rfl rfl rfl rfl rfl fun hp' => absurd hp' (Bool.eq_false_iff.mp hp)

/-- A byte within the block joins the bytes in `Buf`. -/
theorem absorbed_storeByte (hcount : (storeByte b s).bitCount = BitVec.ofNat 64 (8 * (m ++ [b]).length)) (hlt : m.length % 64 ≠ 63) :
    Absorbed (m ++ [b]) (storeByte b s) := by
  have hblocks : (m ++ [b]).length / 64 = m.length / 64 := by rw [List.length_append, List.length_singleton]; omega
  refine ⟨hcount, hblocks ▸ settlesTo_storeByte h hp b, fun j hj hlt' => ?_⟩
  rw [List.length_append, List.length_singleton] at hlt'
  rw [hblocks, storeByte_tail h b j hj (by omega)]

/-- The last byte of a block makes `Buf` the next block of the message. -/
theorem absorbed_completeBlock (hcount : (storeByte b s).bitCount = BitVec.ofNat 64 (8 * (m ++ [b]).length)) (hlast : m.length % 64 = 63) :
    Absorbed (m ++ [b]) (completeBlock (storeByte b s)) := by
  have hblocks : (m ++ [b]).length / 64 = m.length / 64 + 1 := by rw [List.length_append, List.length_singleton]; omega
  have hblock : (storeByte b s).buf = blockOf ((m ++ [b]).drop (64 * (m.length / 64))) := by
    refine Vector.ext fun j hj => ?_
    rw [storeByte_tail h b j hj (by omega)]
    simp only [blockOf, Vector.getElem_ofFn, List.getD_eq_getElem?_getD, List.getElem?_drop]
  refine ⟨(completeBlock_bitCount _).trans hcount, ?_, fun j _ hlt => ?_⟩
  · rw [hblocks, compressBlocks_succ, ← hblock]
    exact settlesTo_completeBlock (settlesTo_storeByte h hp b) hp
  · rw [List.length_append, List.length_singleton] at hlt
    omega

/-- One more byte, on an engine with no block waiting. -/
theorem Absorbed.absorbByte : Absorbed (m ++ [b]) (absorbByte b s) := by
  have hcount : (storeByte b s).bitCount = BitVec.ofNat 64 (8 * (m ++ [b]).length) := by
    rw [storeByte_bitCount, addByte_eq, h.count, List.length_append, List.length_singleton, Nat.mul_succ, BitVec.ofNat_add]
    rfl
  rw [Machine.absorbByte]
  split
  · next hlast => exact absorbed_completeBlock h hp b hcount (by rw [← h.index_toNat, hlast]; rfl)
  · next hnot => exact absorbed_storeByte h hp b hcount fun h63 => hnot (index_eq_last (h.index_toNat.trans h63))

end

/-- Bytes can be absorbed: none waits to be, or no block does and the bytes end at the latest with the block that will. -/
def HasRoom (n : Nat) (s : State) : Prop :=
  n = 0 ∨ (s.pend = false ∧ s.index.toNat + n ≤ if s.busy then 64 else 128)

theorem hasRoom_absorbByte {n : Nat} {s : State} (h : HasRoom (n + 1) s) (b : Byte) : HasRoom n (absorbByte b s) := by
  obtain ⟨hp, hroom⟩ := h.resolve_left (Nat.succ_ne_zero n)
  have hindex : (absorbByte b s).index.toNat = (s.index.toNat + 1) % 64 := absorbBytes_index [b] s
  rcases absorbByte_cases b s with ⟨hne, he⟩ | ⟨hlast, hb, he⟩ | ⟨hlast, hb, -⟩
  · refine .inr ⟨by rw [he]; exact hp, ?_⟩
    rw [hindex]
    have hbusy : (absorbByte b s).busy = s.busy := by rw [he]; rfl
    rw [hbusy]
    omega
  · refine .inr ⟨by rw [he]; exact hp, ?_⟩
    have hbusy : (absorbByte b s).busy = true := by rw [he]; rfl
    rw [hb, if_neg Bool.false_ne_true, hlast] at hroom
    have hroom' : 63 + (n + 1) ≤ 128 := hroom
    rw [hindex, hbusy, hlast, if_pos rfl]
    show (63 + 1) % 64 + n ≤ 64
    omega
  · rw [hb, if_pos rfl, hlast] at hroom
    have hroom' : 63 + (n + 1) ≤ 64 := hroom
    exact .inl (by omega)

theorem Absorbed.absorbBytes {m : List Byte} {s : State} (h : Absorbed m s) (bs : List Byte) (hroom : HasRoom bs.length s) :
    Absorbed (m ++ bs) (absorbBytes bs s) := by
  induction bs generalizing m s with
  | nil => rwa [List.append_nil]
  | cons b bs ih =>
    obtain ⟨hp, -⟩ := hroom.resolve_left (Nat.succ_ne_zero _)
    rw [List.append_cons]
    exact ih (h.absorbByte hp b) (hasRoom_absorbByte hroom b)

theorem Absorbed.absorb {m : List Byte} {s : State} (h : Absorbed m s) (bs : List Byte) (hroom : HasRoom bs.length s) :
    Absorbed (m ++ bs) (absorb bs s) := by
  rw [Machine.absorb]
  split
  · next hnil => simpa [hnil] using h
  · exact (h.absorbBytes bs hroom).forgetTail

end Sys2Proof.Machine
end

section
/-! SUPPORT, and the proof of O55. Runs of the accesses of a whole message (spec/30_encoding.md R119; spec/40_commands.md R142), whichever agent moves
when both can (spec/20_memory.md R84). -/

namespace Sys2Proof.Machine

/-! ### Runs -/

/-- Some number of steps leads from `s` to `t`. -/
def Reaches (s t : State) : Prop := ∃ n, Host.Core.run core n s = .next t

theorem Reaches.refl (s : State) : Reaches s s := ⟨0, rfl⟩

theorem reaches_of_step_of_reaches {s u t : State} (h : step s = .next u) (hut : Reaches u t) : Reaches s t := by
  obtain ⟨n, hn⟩ := hut
  exact ⟨n + 1, (run_succ_of_step h n).trans hn⟩

theorem reaches_of_step {s t : State} (h : step s = .next t) : Reaches s t := reaches_of_step_of_reaches h (Reaches.refl t)

theorem Reaches.trans {s u t : State} (hsu : Reaches s u) (hut : Reaches u t) : Reaches s t := by
  obtain ⟨n, hn⟩ := hsu
  induction n generalizing s with
  | zero =>
    obtain rfl : s = u := Host.Outcome.next.inj hn
    exact hut
  | succ n ih =>
    obtain ⟨v, hv⟩ := engineNeverStops s
    exact reaches_of_step_of_reaches hv (ih (run_succ_of_step hv n ▸ hn))

/-! ### An engine on its way through a message -/

/-- The engine has absorbed `m`, and its flags, its reads and the fault marks are those of `r`. -/
structure Hashing (r : State) (m : List Byte) (s : State) : Prop where
  spent : s.spent = r.spent
  ovf : s.ovf = r.ovf
  err : s.err = r.err
  ecause : s.ecause = r.ecause
  reads : s.reads = r.reads
  marks : s.marks = r.marks
  resetIn : s.resetIn = false
  pend : s.pend = true → s.busy = true ∧ s.spent = true
  absorbed : Absorbed m s

namespace Hashing

variable {r s : State} {m : List Byte}

theorem pend_eq_false (h : Hashing r m s) (hr : r.spent = false) : s.pend = false :=
  Bool.eq_false_iff.mpr fun hp => absurd ((h.pend hp).2.symm.trans (h.spent.trans hr)) (by decide)

/-- The host's queue, DATA_IN and the draws are no part of the message. -/
theorem withHost (h : Hashing r m s) (q : List Access) (x : Word) (d : Nat) : Hashing r m { s with queue := q, dataIn := x, draws := d } :=
  { h with
    absorbed := ⟨h.absorbed.count, settlesTo_congr h.absorbed.settles rfl rfl rfl rfl rfl rfl fun _ => rfl, h.absorbed.tail⟩ }

theorem pipelineStep (h : Hashing r m s) : Hashing r m (pipelineStep s) where
  spent := (pipelineStep_spent s).trans h.spent
  ovf := (pipelineStep_ovf s).trans h.ovf
  err := (pipelineStep_err s).trans h.err
  ecause := (pipelineStep_ecause s).trans h.ecause
  reads := (pipelineStep_reads s).trans h.reads
  marks := (pipelineStep_marks s).trans h.marks
  resetIn := (pipelineStep_resetIn s).trans h.resetIn
  pend := fun hp => ⟨pipelineStep_busy_of_pend (fun hp' => (h.pend hp').1) hp,
    (pipelineStep_spent s).trans (h.pend (pend_of_pipelineStep_pend hp)).2⟩
  absorbed := h.absorbed.pipelineStep

theorem pipelineSteps (h : Hashing r m s) (n : Nat) : Hashing r m (pipelineSteps n s) := by
  induction n with
  | zero => exact h
  | succ n ih => exact pipelineSteps_succ n s ▸ ih.pipelineStep

end Hashing

theorem pipelineSteps_dataIn (n : Nat) (s : State) : (pipelineSteps n s).dataIn = s.dataIn := by
  induction n with
  | zero => rfl
  | succ n ih => rw [pipelineSteps_succ, pipelineStep_dataIn, ih]

section
variable {r s : State} {m : List Byte} {rest : List Access} (h : Hashing r m s)
include h

/-- R244: a held access meets an idle engine. -/
theorem reaches_idle {a : Access} (hq : s.queue = a :: rest) (hh : a.heldWhileBusy = true) :
    ∃ u, Reaches s u ∧ Hashing r m u ∧ u.busy = false ∧ u.queue = a :: rest ∧ u.dataIn = s.dataIn :=
  ⟨_, ⟨_, run_of_held h.resetIn hq hh _ le_rfl⟩, h.pipelineSteps _, pipelineSteps_stepsLeft_busy s, (pipelineSteps_queue _ s).trans hq,
    pipelineSteps_dataIn _ s⟩

/-- A command word is accepted by the engine once it is idle. -/
theorem reaches_acceptance {cw : Word} (hq : s.queue = .command cw :: rest) :
    ∃ u, Hashing r m u ∧ u.busy = false ∧ u.queue = rest ∧ u.dataIn = s.dataIn ∧ ∀ t, acceptWord cw u = .next t → Reaches s t := by
  obtain ⟨u, hsu, hu, hb, hqu, hdata⟩ := reaches_idle h hq (heldWhileBusy_command cw)
  refine ⟨{ u with queue := rest }, hu.withHost rest u.dataIn u.draws, hb, rfl, hdata, fun t ht => hsu.trans (reaches_of_step ?_)⟩
  rw [step_of_idle hu.resetIn hqu hb, perform_command, ht]

/-- A DATA_IN write takes effect sooner or later: the pipeline can move ahead of it only while steps are left. -/
theorem reaches_dataIn {d : Word} (hq : s.queue = .wr .dataIn d :: rest) :
    ∃ t, Reaches s t ∧ Hashing r m t ∧ t.queue = rest ∧ t.dataIn = d := by
  generalize hn : stepsLeft s = n
  induction n generalizing s with
  | zero =>
    have hb := (stepsLeft_eq_zero_iff s).mp hn
    exact ⟨_, reaches_of_step ((step_of_idle h.resetIn hq hb).trans (perform_wr_dataIn d _)), h.withHost rest d s.draws, rfl, rfl⟩
  | succ n ih =>
    have hb : s.busy = true := (pipelineSteps_busy_iff 0 s).mpr (by omega)
    rcases step_of_contended h.resetIn hq hb (heldWhileBusy_wr_dataIn d) with hstep | hstep
    · have hdrawn : Hashing r m (drawn s) := h.withHost s.queue s.dataIn (s.draws + 1)
      have hleft : stepsLeft (pipelineStep (drawn s)) = n := by
        have hsame : stepsLeft (drawn s) = stepsLeft s := rfl
        rw [stepsLeft_pipelineStep, hsame, hn, Nat.add_sub_cancel]
      obtain ⟨t, hst, ht⟩ := ih hdrawn.pipelineStep ((pipelineStep_queue _).trans hq) hleft
      exact ⟨t, reaches_of_step_of_reaches hstep hst, ht⟩
    · exact ⟨_, reaches_of_step (hstep.trans (perform_wr_dataIn d _)), h.withHost rest d (s.draws + 1), rfl, rfl⟩

/-- R134: an UPDATE adds the first lanes of DATA_IN to the message. -/
theorem reaches_update {nb : BitVec 3} (hr : r.spent = false) (hnb : nb.toNat ≤ 4) (hlen : 8 * (m.length + nb.toNat) < 2 ^ 64)
    (hq : s.queue = .command (encode (.update nb)) :: rest) :
    ∃ t, Reaches s t ∧ Hashing r (m ++ updateBytes nb s.dataIn) t ∧ t.queue = rest := by
  obtain ⟨u, hu, hb, hqu, hdata, hreach⟩ := reaches_acceptance h hq
  have hdecode : decode (encode (.update nb)) = .ok (.update nb) := decodeAfterEncode _ (decide_eq_true hnb)
  have hbytes := updateBytes_length nb u.dataIn hnb
  have hidx := u.index.isLt
  have hpend : u.pend = false := hu.pend_eq_false hr
  have hcarry : carries u.bitCount (updateBytes nb u.dataIn).length = false := by
    rw [hu.absorbed.count, hbytes, carries, BitVec.toNat_ofNat]
    exact decide_eq_false (by omega)
  have hframe := absorb_frame (updateBytes nb u.dataIn) u
  have hroom : HasRoom (updateBytes nb u.dataIn).length u := .inr ⟨hpend, by rw [hb, if_neg Bool.false_ne_true]; omega⟩
  refine ⟨_, hreach _ ((acceptWord_ok hdecode u).trans (exec_update_absorbs hb (hu.spent.trans hr) hnb)), ?_, hframe.queue.trans hqu⟩
  rw [← hdata]
  exact {
    spent := hframe.spent.trans hu.spent
    ovf := by rw [absorb_ovf, absorbBytes_ovf _ _ (by omega), hcarry, Bool.or_false, hu.ovf]
    err := hframe.err.trans hu.err
    ecause := hframe.ecause.trans hu.ecause
    reads := hframe.reads.trans hu.reads
    marks := by
      rw [absorb_marks, absorbBytes_marks _ _ (by omega), carryMark, hcarry, if_neg Bool.false_ne_true, List.append_nil, hu.marks]
    resetIn := hframe.resetIn.trans hu.resetIn
    pend := fun hp => by
      rw [absorb_pend, absorbBytes_pend hb (by omega), hpend] at hp
      exact absurd hp Bool.false_ne_true
    absorbed := hu.absorbed.absorb _ hroom }

/-- One word of ABSORB. -/
theorem reaches_chunk {d : Word} {nb : BitVec 3} {bs : List Byte} (hbs : updateBytes nb d = bs) (hr : r.spent = false)
    (hnb : nb.toNat ≤ 4) (hlen : 8 * (m.length + nb.toNat) < 2 ^ 64) (hq : s.queue = chunkAccesses d nb ++ rest) :
    ∃ t, Reaches s t ∧ Hashing r (m ++ bs) t ∧ t.queue = rest := by
  subst hbs
  obtain ⟨u, hsu, hu, hqu, rfl⟩ := reaches_dataIn h hq
  obtain ⟨t, hut, ht⟩ := reaches_update hu hr hnb hlen hqu
  exact ⟨t, hsu.trans hut, ht⟩

end

theorem updateBytes_be32 (nb : BitVec 3) (b0 b1 b2 b3 : Byte) : updateBytes nb (be32 b0 b1 b2 b3) = [b0, b1, b2, b3].take nb.toNat := by
  rw [updateBytes, be32Bytes_be32]

/-- ABSORB of any bytes (R119). -/
theorem reaches_absorb (bs : List Byte) {r s : State} {m : List Byte} {rest : List Access} (h : Hashing r m s) (hr : r.spent = false)
    (hlen : 8 * (m.length + bs.length) < 2 ^ 64) (hq : s.queue = absorbAccesses bs ++ rest) :
    ∃ t, Reaches s t ∧ Hashing r (m ++ bs) t ∧ t.queue = rest := by
  induction bs using absorbAccesses.induct generalizing m s with
  | case1 => exact ⟨s, Reaches.refl s, by rwa [List.append_nil], hq⟩
  | case2 b0 => exact reaches_chunk h (updateBytes_be32 1 b0 0 0 0) hr (by decide) hlen hq
  | case3 b0 b1 => exact reaches_chunk h (updateBytes_be32 2 b0 b1 0 0) hr (by decide) hlen hq
  | case4 b0 b1 b2 => exact reaches_chunk h (updateBytes_be32 3 b0 b1 b2 0) hr (by decide) hlen hq
  | case5 b0 b1 b2 b3 bs ih =>
    simp only [List.length_cons] at hlen
    obtain ⟨u, hsu, hu, hqu⟩ := reaches_chunk h (updateBytes_be32 4 b0 b1 b2 b3) (rest := absorbAccesses bs ++ rest) hr (by decide)
      (show 8 * (m.length + 4) < 2 ^ 64 by omega) (by rw [hq, absorbAccesses, List.append_assoc])
    obtain ⟨t, hut, ht, hqt⟩ := ih hu (by simp; omega) hqu
    exact ⟨t, hsu.trans hut, by simpa using ht, hqt⟩

/-- ABSORB of each chunk in turn. -/
theorem reaches_absorb_chunks (cs : List (List Byte)) {r s : State} {m : List Byte} {rest : List Access} (h : Hashing r m s)
    (hr : r.spent = false) (hlen : 8 * (m.length + cs.flatten.length) < 2 ^ 64) (hq : s.queue = cs.flatMap absorbAccesses ++ rest) :
    ∃ t, Reaches s t ∧ Hashing r (m ++ cs.flatten) t ∧ t.queue = rest := by
  induction cs generalizing m s with
  | nil => exact ⟨s, Reaches.refl s, by simpa using h, hq⟩
  | cons c cs ih =>
    rw [List.flatten_cons, List.length_append] at hlen
    obtain ⟨u, hsu, hu, hqu⟩ := reaches_absorb c h hr (by omega) (by rw [hq, List.flatMap_cons, List.append_assoc])
    obtain ⟨t, hut, ht, hqt⟩ := ih hu (by rw [List.length_append]; omega) hqu
    exact ⟨t, hsu.trans hut, by rwa [List.flatten_cons, ← List.append_assoc], hqt⟩

/-! ### FINAL and READDIGEST -/

/-- R142: FINAL adds the padding to the message, and the carry of a count that passes 2^64 with it (R133). -/
theorem reaches_final {r s : State} {m : List Byte} {rest : List Access} (h : Hashing r m s) (hspent : r.spent = false) (hovf : r.ovf = false)
    (hlen : 8 * m.length < 2 ^ 64) (hq : s.queue = .command (encode .final) :: rest) :
    ∃ t, Reaches s t ∧ t.queue = rest
      ∧ Hashing { r with
          spent := true
          ovf := decide (2 ^ 64 ≤ 8 * (pad m).length)
          marks := r.marks ++ if 2 ^ 64 ≤ 8 * (pad m).length then [Mark.overflow] else [] } (pad m) t := by
  obtain ⟨u, hu, hb, hqu, -, hreach⟩ := reaches_acceptance h hq
  have hpend : u.pend = false := hu.pend_eq_false hspent
  have hle := finalBytes_length_le u.bitCount
  have hbytes : m ++ finalBytes u.bitCount = pad m := by rw [hu.absorbed.count, ← pad_eq_append_finalBytes]
  have hcarry : carries u.bitCount (finalBytes u.bitCount).length = decide (2 ^ 64 ≤ 8 * (pad m).length) := by
    have hcount : u.bitCount.toNat = 8 * m.length := by rw [hu.absorbed.count, BitVec.toNat_ofNat, Nat.mod_eq_of_lt hlen]
    rw [carries, hcount, ← hbytes, List.length_append, Nat.mul_add]
  have hframe := absorb_frame (finalBytes u.bitCount) { u with spent := true }
  have hroom : HasRoom (finalBytes u.bitCount).length { u with spent := true } := by
    have hsum := index_add_finalBytes_length u
    refine .inr ⟨hpend, ?_⟩
    show u.index.toNat + _ ≤ if u.busy = true then 64 else 128
    rw [hb, if_neg Bool.false_ne_true, hsum]
    split <;> decide
  have habsorbed : Absorbed m { u with spent := true } :=
    ⟨hu.absorbed.count, settlesTo_congr hu.absorbed.settles rfl rfl rfl rfl rfl rfl fun _ => rfl, hu.absorbed.tail⟩
  refine ⟨_, hreach _ ((acceptWord_ok (by decide) u).trans (exec_final_absorbs hb (hu.spent.trans hspent))), hframe.queue.trans hqu, ?_⟩
  rw [← hbytes] at hcarry ⊢
  exact {
    spent := hframe.spent
    ovf := by
      rw [absorb_ovf, absorbBytes_ovf _ _ (by omega)]
      show (u.ovf || carries u.bitCount _) = _
      rw [hu.ovf, hovf, Bool.false_or, hcarry]
    err := hframe.err.trans hu.err
    ecause := hframe.ecause.trans hu.ecause
    reads := hframe.reads.trans hu.reads
    marks := by
      rw [absorb_marks, absorbBytes_marks _ _ (by omega)]
      show u.marks ++ carryMark u.bitCount _ = _
      rw [hu.marks, carryMark, hcarry]
      simp only [decide_eq_true_eq]
    resetIn := hframe.resetIn.trans hu.resetIn
    pend := fun hp => by
      rw [absorb_pend] at hp
      exact ⟨(absorb_busy _ _).trans (absorbBytes_busy_of_pend _ (fun hp' => absurd hp' (Bool.eq_false_iff.mp hpend)) hp), hframe.spent⟩
    absorbed := habsorbed.absorb _ hroom }

/-- The reads of DIGEST registers on an idle engine, one step each. -/
theorem reaches_digest_reads (is : List (Fin 8)) {s : State} (hr : s.resetIn = false) (hb : s.busy = false)
    (hq : s.queue = is.map fun i => .rd (.digest i)) :
    Reaches s { s with queue := [], reads := s.reads ++ is.map fun i => s.h[i] } := by
  induction is generalizing s with
  | nil =>
    rw [List.map_nil] at hq ⊢
    rw [List.append_nil, ← hq]
    exact Reaches.refl s
  | cons i is ih =>
    have hstep := (step_of_idle hr hq hb).trans (perform_rd (.digest i) _)
    have hrest := ih (s := returnWord s.h[i] { s with queue := is.map fun i => .rd (.digest i) }) hr hb rfl
    simp only [returnWord, List.append_assoc, List.singleton_append] at hrest
    exact reaches_of_step_of_reaches hstep hrest

theorem digest_toList (x : Digest) : x.toList = ([0, 1, 2, 3, 4, 5, 6, 7] : List (Fin 8)).map fun i => x[i] := by
  refine List.ext_getElem (by simp) fun i hi _ => ?_
  have h8 : i < 8 := by simpa using hi
  interval_cases i <;> simp

/-- READDIGEST (R119) waits for the pipeline, and then reads the state array it was heading for. -/
theorem reaches_readDigest {r s : State} {m : List Byte} (h : Hashing r m s) (hq : s.queue = readDigestAccesses) :
    ∃ t, Reaches s t ∧ t.ended ∧ t.spent = r.spent ∧ t.ovf = r.ovf ∧ t.err = r.err ∧ t.ecause = r.ecause ∧ t.marks = r.marks
      ∧ t.bitCount = BitVec.ofNat 64 (8 * m.length) ∧ t.h = compressBlocks (m.length / 64) m initialValue
      ∧ t.reads = r.reads ++ (compressBlocks (m.length / 64) m initialValue).toList := by
  obtain ⟨u, hsu, hu, hb, hqu, -⟩ := reaches_idle h hq (heldWhileBusy_rd_digest 0)
  have hx := h_of_settlesTo hu.absorbed.settles hb
  have hreads := reaches_digest_reads [0, 1, 2, 3, 4, 5, 6, 7] hu.resetIn hb hqu
  rw [← digest_toList, hu.reads] at hreads
  exact ⟨_, hsu.trans hreads, ⟨rfl, hb⟩, hu.spent, hu.ovf, hu.err, hu.ecause, hu.marks, hu.absorbed.count, hx,
    congrArg (r.reads ++ ·.toList) hx⟩

/-! ### Whole messages -/

/-- An idle engine as reset or INIT leaves it has absorbed nothing. -/
theorem hashing_nil {s : State} (hr : s.resetIn = false) (hb : s.busy = false) (hp : s.pend = false) (hh : s.h = initialValue)
    (hc : s.bitCount = 0) : Hashing s [] s where
  spent := rfl
  ovf := rfl
  err := rfl
  ecause := rfl
  reads := rfl
  marks := rfl
  resetIn := hr
  pend := fun hp' => absurd hp' (Bool.eq_false_iff.mp hp)
  absorbed := ⟨hc, .inl ⟨hb, hh⟩, fun _ _ hlt => absurd hlt (Nat.not_lt_zero _)⟩

theorem hashes_of_messageAccesses {cs : List (List Byte)} {s : State} (hlen : 8 * cs.flatten.length < 2 ^ 64) (hr : s.resetIn = false)
    (hb : s.busy = false) (hp : s.pend = false) (hq : s.queue = messageAccesses cs) (hh : s.h = initialValue) (hc : s.bitCount = 0)
    (hspent : s.spent = false) (hovf : s.ovf = false) : s.hashes cs.flatten s.err s.ecause := by
  obtain ⟨u, hsu, hu, hqu⟩ := reaches_absorb_chunks cs (hashing_nil hr hb hp hh hc) hspent (by simpa using hlen)
    (by rw [hq, messageAccesses, List.append_assoc])
  rw [List.nil_append] at hu
  obtain ⟨v, huv, hqv, hv⟩ := reaches_final hu hspent hovf hlen hqu
  obtain ⟨t, hvt, hended, htspent, htovf, hterr, htecause, htmarks, htcount, hth, htreads⟩ := reaches_readDigest hv hqv
  have hindex : t.index = 0 := by
    refine BitVec.eq_of_toNat_eq ?_
    rw [State.index, htcount, indexOf_ofNat_bits, pad_length_mod]
    rfl
  obtain ⟨n, hn⟩ := (hsu.trans huv).trans hvt
  exact ⟨n, t, hn, hended, htspent, hindex, hterr, htecause, htcount, htovf, htmarks, fun _ => ⟨hth, htreads⟩⟩

theorem hashes_of_step {s t : State} {m : List Byte} {err : Bool} {ecause : BitVec 3} (hstep : step s = .next t) (hmarks : t.marks = s.marks)
    (hreads : t.reads = s.reads) (h : t.hashes m err ecause) : s.hashes m err ecause := by
  obtain ⟨n, u, hn, hu⟩ := h
  rw [hmarks, hreads] at hu
  exact ⟨n + 1, u, (run_succ_of_step hstep n).trans hn, hu⟩

/-- Settles O55: INIT leaves an engine as reset does, and there the accesses of the message run through whichever agent moves. -/
theorem hashProgramGivesDigest : Obligations.HashProgramGivesDigest := by
  unfold Obligations.HashProgramGivesDigest
  refine fun cs s hlen hr hb hp _ => ⟨fun hq => ?_, fun hq hh hc hspent hovf => hashes_of_messageAccesses hlen hr hb hp hq hh hc hspent hovf⟩
  have hstep : step s = .next (initEffect { s with queue := messageAccesses cs }) := by
    rw [step_of_idle hr hq hb, perform_command, acceptWord_ok (i := .init) (by decide)]
    exact exec_init_of_idle hb
  have hready := hashes_of_messageAccesses (s := initEffect { s with queue := messageAccesses cs }) hlen (by simpa using hr) (by simpa using hb)
    (by simpa using hp) (by simp) (by simp) (by simp) (by simp) (by simp)
  rw [initEffect_err, initEffect_ecause] at hready
  exact hashes_of_step hstep (by simp) (by simp) hready

end Sys2Proof.Machine
end
